-- ==== Sys2Proof/Word.lean ====
section
/-! DEFINITION. The 32-bit word of the block: operands, responses, table entries and buffer elements are all words of 32 unsigned
bits (00_scope.md R8, 20_memory.md R24). -/

namespace Sys2Proof

/-- A word of 32 bits. -/
abbrev Word := BitVec 32

/-- A byte, as a byte-addressed host sees part of a word (20_memory.md R27). -/
abbrev Byte := BitVec 8

end Sys2Proof
end

