-- ==== Sys2Proof/Config.lean ====
section
/-! DEFINITION. The fixed parameters of 00_scope.md R6, and the one parameter R6 leaves OPEN that is not launch state,
and the free choices of the block's own steps. -/

namespace Sys2Proof

/-- How a byte-addressed host lays out the four bytes of a word (20_memory.md R27). -/
inductive ByteOrder where
  | little
  | big
deriving DecidableEq, Repr, Inhabited

namespace Config

/-- TABLE_N. -/
abbrev tableN : Nat := 101
/-- RESCALE_SHIFT = TABLE_FRAC - OUT_FRAC = 28 - 16. -/
abbrev rescaleShift : Nat := 12
/-- REDUCE_BASE. -/
abbrev reduceBase : Nat := 100
/-- REDUCE_LIMIT: the largest reduced value. -/
abbrev reduceLimit : Nat := 99
/-- SCALE_BASE. -/
abbrev scaleBase : Nat := 10
/-- RATIO_FRAC: fractional bits of ratio16. -/
abbrev ratioFrac : Nat := 16
/-- K_MAX: the largest reduction count for a 32-bit n. -/
abbrev kMax : Nat := 4
/-- The size of the element address space: EADDR_W is 32. -/
abbrev elements : Nat := 2 ^ 32

/-- HOST_BYTE_ORDER, OPEN: a parameter of the host (00_scope.md R6, decision D14). It has no body, so no proof can see which
order it is. Log 16. -/
opaque hostByteOrder : ByteOrder

/-- Which Busy command the block advances in its `n`-th step of its own, made where no move can be: any (60_exceptions.md R102). A free value without
a body. Log 5. -/
opaque freeClient : Nat → Nat

/-- Which unwritten element INITTABLE writes in that step: any (44_table_initializer.md R86). A free value without a body. Log 5. -/
opaque freePick : Nat → Nat

end Config
end Sys2Proof
end

