-- ==== Sys2Proof/Syntax.lean ====
section
/-! DEFINITION. Commands as they are sent, and the three operations of spec/opcode_table.json as syntax. -/

namespace Sys2Proof

/-- One command transaction: the command word CW and the operand words A, B and C (30_encoding.md R45). -/
structure Command where
  cw : Word
  a : Word
  b : Word
  c : Word
deriving DecidableEq, Repr

/-- A legal command, one constructor per row of the opcode table (30_encoding.md R47, R48). The operand words an operation
ignores are kept: they may hold any value, and keeping them makes a command and its instruction determine each other. -/
inductive Instr where
  /-- SQRT: A is n; B and C are ignored. -/
  | sqrt (n b c : Word)
  /-- TLOOKUP: A is the table index i; B and C are ignored. -/
  | tlookup (i b c : Word)
  /-- INITTABLE: A is the count N, B the base element address of the buffer, C its capacity in elements. -/
  | inittable (n base cap : Word)
deriving DecidableEq, Repr

end Sys2Proof
end

