-- ==== Sys2Proof/WellFormed.lean ====
section
/-! DEFINITION. Which command transactions are legal, as 30_encoding.md R49 says it. Every 32-bit value is admitted in every
operand word (R44, R46, R48), so a term of `Instr` is always well formed and the checks are on the raw command word. -/

namespace Sys2Proof

/-- CW[31:8] = 0 (R46: reserved, must be zero). -/
def Command.reservedZero (c : Command) : Bool := c.cw.toNat / 256 == 0

/-- CW[7:0] is 0x01, 0x02 or 0x03 (R47). -/
def Command.opAssigned (c : Command) : Bool :=
  [1, 2, 3].contains (c.cw.toNat % 256)

/-- R49: "A command is legal iff CW[31:8] = 0 and CW[7:0] is 0x01, 0x02 or 0x03." -/
def Command.legal (c : Command) : Bool := c.reservedZero && c.opAssigned

end Sys2Proof
end

