-- ==== Sys2Proof/Decode.lean ====
section
/-! DEFINITION. The decoder of 30_encoding.md R49, total on any four words and rejecting by name, and after it the encoder,
written from the encoding table of R53. -/

namespace Sys2Proof

/-- Why a command word is illegal. Both reasons give E_ILLEGAL (R51). -/
inductive DecodeError where
  /-- CW[31:8] is not zero (R46). -/
  | reservedBitsSet
  /-- CW[7:0] is 0x00 or 0x04 .. 0xFF (R47). -/
  | reservedOpcode
deriving DecidableEq, Repr

/-- CW[7:0], the field OP (R46). -/
def opField (cw : Word) : BitVec 8 := cw.extractLsb' 0 8

/-- CW[31:8], the field RSVD (R46). -/
def rsvdField (cw : Word) : BitVec 24 := cw.extractLsb' 8 24

/-- R49's decode: the reserved field first, then the operation code. -/
def decode (c : Command) : Except DecodeError Instr :=
  if rsvdField c.cw ≠ 0#24 then .error .reservedBitsSet
  else if opField c.cw = 0x01#8 then .ok (.sqrt c.a c.b c.c)
  else if opField c.cw = 0x02#8 then .ok (.tlookup c.a c.b c.c)
  else if opField c.cw = 0x03#8 then .ok (.inittable c.a c.b c.c)
  else .error .reservedOpcode

/-- The four words that stand for an instruction (R53). -/
def encode : Instr → Command
  | .sqrt n b c => ⟨0x00000001#32, n, b, c⟩
  | .tlookup i b c => ⟨0x00000002#32, i, b, c⟩
  | .inittable n base cap => ⟨0x00000003#32, n, base, cap⟩

/-- What R53's assembly notation writes for an instruction: 0 in the operand words its operation ignores. -/
def assemble : Instr → Command
  | .sqrt n _ _ => encode (.sqrt n 0 0)
  | .tlookup i _ _ => encode (.tlookup i 0 0)
  | .inittable n base cap => encode (.inittable n base cap)

/-- The transaction whose bits are numbered as the opcode table numbers them: CW is bits 31..0, A bits 63..32, B bits 95..64
and C bits 127..96 (log 15). -/
def commandOfBits (w : Nat) : Command :=
  ⟨BitVec.ofNat 32 w, BitVec.ofNat 32 (w >>> 32), BitVec.ofNat 32 (w >>> 64), BitVec.ofNat 32 (w >>> 96)⟩

/-- The transaction given by the low `nbits` bits of `w`; every bit above them is 0. -/
def tableCommand (nbits w : Nat) : Command := commandOfBits (w % 2 ^ nbits)

/-- What the decoder reads from an instruction of the opcode table. -/
def decodeTableWord (nbits w : Nat) : Option Instr :=
  match decode (tableCommand nbits w) with
  | .ok i => some i
  | .error _ => none

end Sys2Proof
end

