-- ==== Sys2Proof/Machine/Sparse.lean ====
section
/-! DEFINITION. Finite maps from natural numbers held as plain data: a list of (key, value) pairs with strictly rising keys.
HOST_MEM (20_memory.md R26) and the requesters' slots (10_state.md R18) are both held so, so that equal maps are equal lists. -/

namespace Sys2Proof.Machine

namespace Sparse

variable {α : Type}

/-- The value at a key, if one is listed. -/
def read : List (Nat × α) → Nat → Option α
  | [], _ => none
  | (k, v) :: rest, key => if k = key then some v else read rest key

/-- List a value at a key, in place of the one listed there before. -/
def write : List (Nat × α) → Nat → α → List (Nat × α)
  | [], key, x => [(key, x)]
  | (k, v) :: rest, key, x =>
    if key < k then (key, x) :: (k, v) :: rest
    else if key = k then (key, x) :: rest
    else (k, v) :: write rest key x

/-- List nothing at a key. -/
def erase (m : List (Nat × α)) (key : Nat) : List (Nat × α) :=
  m.filter fun entry => entry.1 != key

/-- The canonical form: the keys rise strictly. -/
abbrev rising (m : List (Nat × α)) : Prop := (m.map Prod.fst).Pairwise (· < ·)

end Sparse

/-- Add an index to a set of indices held as a strictly rising list (10_state.md R19: W). -/
def insertIndex (i : Nat) : List Nat → List Nat
  | [] => [i]
  | w :: ws => if i < w then i :: w :: ws else if i = w then w :: ws else w :: insertIndex i ws

/-- Counting from 0, the `k`-th natural number that a strictly rising list does not hold. -/
def nthUnwritten : List Nat → Nat → Nat
  | [], k => k
  | w :: ws, k => if k < w then k else nthUnwritten ws (k + 1)

end Sys2Proof.Machine
end

