-- ==== Sys2Proof/Machine/SqrtTable.lean ====
section
/-! DEFINITION. The contents of the SqrtTable ROM: the 101 words of 40_sqrt_table.md R56, FixedPoint4_28 (R41), each the word
nearest to sqrt(i) * 2^28 (R55). That the words below satisfy R55 is a statement of its own, not built in. -/

namespace Sys2Proof.Machine

/-- T[0] .. T[19] (R56). -/
def romWords0 : List Word :=
  [0x00000000, 0x10000000, 0x16A09E66, 0x1BB67AE8, 0x20000000,
   0x23C6EF37, 0x27311C28, 0x2A54FF54, 0x2D413CCD, 0x30000000,
   0x3298B076, 0x3510E528, 0x376CF5D1, 0x39B05689, 0x3BDDD423,
   0x3DF7BD63, 0x40000000, 0x41F83D9B, 0x43E1DB33, 0x45BE0CD2]

/-- T[20] .. T[39] (R56). -/
def romWords20 : List Word :=
  [0x478DDE6E, 0x49523AE4, 0x4B0BF165, 0x4CBBB9D6, 0x4E623850,
   0x50000000, 0x5195957C, 0x532370B9, 0x54A9FEA7, 0x5629A293,
   0x57A2B749, 0x59159016, 0x5A82799A, 0x5BE9BA86, 0x5D4B9437,
   0x5EA84346, 0x60000000, 0x6152FECE, 0x62A17094, 0x63EB8305]

/-- T[40] .. T[59] (R56). -/
def romWords40 : List Word :=
  [0x653160EB, 0x66733266, 0x67B11D29, 0x68EB44A8, 0x6A21CA50,
   0x6B54CDA6, 0x6C846C72, 0x6DB0C2E1, 0x6ED9EBA1, 0x70000000,
   0x71231800, 0x72434A75, 0x7360AD12, 0x747B5482, 0x75935478,
   0x76A8BFBF, 0x77BBA846, 0x78CC1F31, 0x79DA34E6, 0x7AE5F915]

/-- T[60] .. T[79] (R56). -/
def romWords60 : List Word :=
  [0x7BEF7AC5, 0x7CF6C85D, 0x7DFBEFAE, 0x7EFEFDFB, 0x80000000,
   0x80FF01FB, 0x81FC0FB2, 0x82F73478, 0x83F07B35, 0x84E7EE6C,
   0x85DD983D, 0x86D1826D, 0x87C3B667, 0x88B43D45, 0x89A31FD2,
   0x8A90668A, 0x8B7C19A3, 0x8C66410F, 0x8D4EE47B, 0x8E360B59]

/-- T[80] .. T[100] (R56). -/
def romWords80 : List Word :=
  [0x8F1BBCDD, 0x90000000, 0x90E2DB87, 0x91C45600, 0x92A475C9,
   0x9383410D, 0x9460BDCA, 0x953CF1D1, 0x9617E2CB, 0x96F19633,
   0x97CA1161, 0x98A15985, 0x997773AC, 0x9A4C64BE, 0x9B203182,
   0x9BF2DEA0, 0x9CC470A0, 0x9D94EBEB, 0x9E6454CD, 0x9F32AF78,
   0xA0000000]

/-- T[0..100] (R56). -/
def romWords : List Word :=
  romWords0 ++ romWords20 ++ romWords40 ++ romWords60 ++ romWords80

/-- The SqrtTable ROM: 101 words (10_state.md R17). -/
abbrev Rom := Vector Word Config.tableN

/-- The ROM as the block is built. -/
def romContents : Rom := ⟨romWords.toArray, by decide⟩

end Sys2Proof.Machine
end

