-- ==== Sys2Proof/Machine/State.lean ====
section
/-! DEFINITION. All the state the spec gives the machine (10_state.md R23), the three fields of the model's own that carry the
spec's free choices, and the state after reset. -/

namespace Sys2Proof.Machine

/-- The status codes of 30_encoding.md R51; codes 0x04 .. 0xFF are never returned. -/
inductive Status where
  | ok
  | eIllegal
  | eIndex
  | eBounds
deriving DecidableEq, Repr

/-- A response: STATUS and RESULT (30_encoding.md R50). -/
structure Response where
  status : Status
  result : Word
deriving DecidableEq, Repr

/-- An accepted command (10_state.md R18) and, for INITTABLE, the set W of buffer indices already written (R19), held as a strictly
rising list. The operands N, B and C of R19's record are the command's words A, B and C. -/
structure InFlight where
  cmd : Command
  written : List Nat
deriving DecidableEq, Repr

/-- A requester's command slot (10_state.md R18). -/
inductive Slot where
  | idle
  | busy (f : InFlight)
  | done (r : Response)
deriving DecidableEq, Repr

/-- A response as its requester took it (70_reset_and_hazards.md R116). -/
structure Receipt where
  requester : Nat
  response : Response
deriving DecidableEq, Repr

/-- What is to happen at the block: the liberties of the host (60_exceptions.md R105) and the free interleaving of the
requesters' commands (R102). Log 3. -/
inductive Move where
  /-- Requester `r` offers a command (10_state.md R18). -/
  | issue (r : Nat) (cmd : Command)
  /-- The block takes one step for requester `r`; `pick` is the free choice of 44_table_initializer.md R86. -/
  | run (r pick : Nat)
  /-- Requester `r` takes its response (10_state.md R18). -/
  | take (r : Nat)
  /-- Another agent writes the word `v` to element `e` of host memory (20_memory.md R34, 60_exceptions.md R105). -/
  | hostWrite (e v : Word)
  /-- Reset is asserted (70_reset_and_hazards.md R106). -/
  | reset
deriving DecidableEq, Repr

/-- The requester whose command takes the present step, and the free choice of the element that INITTABLE writes in it. -/
structure Turn where
  client : Nat
  pick : Nat
deriving DecidableEq, Repr

/-- HOST_MEM (10_state.md R22): element addresses with the words known to be there, addresses strictly rising. An element that is
not listed holds the word it was launched with, which the model does not know (log 1, log 2). -/
abbrev Memory := List (Nat × Word)

/-- The command slots, requesters strictly rising; a requester that is not listed is Idle (log 9). -/
abbrev Slots := List (Nat × Slot)

/-- The machine's state. -/
structure State where
  /-- `T[0..100]` (10_state.md R17). -/
  rom : Rom
  /-- The command slot of every requester, with INITTABLE's in-flight records (10_state.md R18, R19). -/
  slots : Slots
  /-- HOST_MEM (10_state.md R22). -/
  mem : Memory
  /-- The responses taken so far, oldest first (70_reset_and_hazards.md R116). -/
  received : List Receipt
  /-- The model's own: what is to happen, first move first; a move waits here while the spec has no step for it (log 3, log 6). -/
  moves : List Move
  /-- The model's own: whose step the present one is, with its free choice (log 4). -/
  turn : Turn
  /-- The model's own: how many of the block's own free choices have been used (log 5). -/
  draws : Nat
deriving DecidableEq, Repr

/-- The reasons to stop: none. The block raises no trap, and each of its errors is a status code in a response, after which it goes
on (60_exceptions.md R90, R92, R96; log 21). -/
inductive Fault where
deriving DecidableEq, Repr

/-- The reasons to refuse. -/
inductive Refusal where
  /-- An operation of the opcode table without a meaning: raised by no arm of exec, since all three have theirs. Safe. -/
  | notModelled (mnemonic : String)
deriving DecidableEq, Repr

/-- The state after reset (70_reset_and_hazards.md R106): the ROM with its contents, every slot Idle, no record. Reset does not set
HOST_MEM: nothing is known of its words (log 2). Nothing has been received (log 12), nothing has been asked for (log 3), and the turn
and the count of free choices hold values the model names (log 4, log 5). -/
def State.reset : State where
  rom := romContents
  slots := []
  mem := []
  received := []
  moves := []
  turn := ⟨0, 0⟩
  draws := 0

end Sys2Proof.Machine
end

