-- ==== Sys2Proof/Machine/Ops.lean ====
section
/-! DEFINITION. The named operations every meaning is built from: the ROM, host memory, the command slots, answering a command,
raising an error, and the moves of the outside world that touch the state directly. -/

namespace Sys2Proof.Machine

/-- `T[i]` (20_memory.md R25). No read of the block leaves 0..100: SQRT and INITTABLE read at most T[nn + 1] with nn <= 99, and
TLOOKUP checks its index first (R25, R60), so the 0 beyond the table is never looked at. -/
def Rom.word (rom : Rom) (i : Nat) : Word := rom.toList.getD i 0

/-- `T[i]` as a natural number, as the pseudocode uses it (00_scope.md R7). -/
def Rom.entry (rom : Rom) (i : Nat) : Nat := (rom.word i).toNat

/-- The canonical form of HOST_MEM: addresses strictly rising, each an element address of 32 bits (20_memory.md R26). Only words are
listed, and an unlisted element reads as no word, so no entry equals what an unlisted one reads as. -/
abbrev Memory.wf (m : Memory) : Prop := Sparse.rising m ∧ ∀ c ∈ m, c.1 < Config.elements

/-- The canonical form of the slots: requesters strictly rising, no Idle slot listed. -/
abbrev Slots.wf (m : Slots) : Prop := Sparse.rising m ∧ ∀ c ∈ m, c.2 ≠ .idle

/-- The word at element `e` of host memory, where the model knows it (20_memory.md R26). -/
def State.hostWord (s : State) (e : Nat) : Option Word := Sparse.read s.mem e

/-- `MemWrite(e, 4, v)` (20_memory.md R29): one whole word. -/
def State.storeWord (s : State) (e : Nat) (v : Word) : State := { s with mem := Sparse.write s.mem e v }

/-- Byte `j` of a word in a byte order (20_memory.md R27). -/
def byteOfWord (order : ByteOrder) (w : Word) (j : Nat) : Byte :=
  match order with
  | .little => w.extractLsb' (8 * j) 8
  | .big => w.extractLsb' (8 * (3 - j)) 8

/-- The byte a byte-addressed host of byte order `order` reads at byte address `a`: element e is bytes 4e .. 4e+3 (20_memory.md
R27). -/
def State.hostByte (order : ByteOrder) (s : State) (a : Nat) : Option Byte :=
  (s.hostWord (a / 4)).map fun w => byteOfWord order w (a % 4)

/-- The byte at byte address `a` for this machine's host, whose byte order is HOST_BYTE_ORDER (00_scope.md R6). -/
def State.byteSeen (s : State) (a : Nat) : Option Byte := s.hostByte Config.hostByteOrder a

/-- The slot of requester `r`; a requester that is not listed is Idle. -/
def State.slot (s : State) (r : Nat) : Slot := (Sparse.read s.slots r).getD .idle

/-- The slots with requester `r`'s in a given state, in canonical form. -/
def Slots.set (m : Slots) (r : Nat) (x : Slot) : Slots :=
  match x with
  | .idle => Sparse.erase m r
  | .busy f => Sparse.write m r (.busy f)
  | .done a => Sparse.write m r (.done a)

/-- Put requester `r`'s slot in a given state. -/
def State.setSlot (s : State) (r : Nat) (x : Slot) : State := { s with slots := Slots.set s.slots r x }

/-- `respond(status, result)` (30_encoding.md R50): the slot of the command being run goes to Done. -/
def State.respond (status : Status) (result : Word) (s : State) : State :=
  s.setSlot s.turn.client (.done ⟨status, result⟩)

/-- `raise E_X` (60_exceptions.md R92): the command ends with `respond(E_X, 0)` and no other effect. Nothing is saved, no mode
changes and there is no vector (R96). The return is the taking of the response, `State.takeResponse` (R97). -/
def raise (e : Status) (s : State) : Host.Outcome State Fault Refusal := .next (s.respond e 0)

/-- The response of requester `r` is taken, and its slot goes to Idle (10_state.md R18). Where there is no response there is nothing
to take; no step asks for it (`Move.possible`, log 7). -/
def State.takeResponse (s : State) (r : Nat) : State :=
  match s.slot r with
  | .done a => { s.setSlot r .idle with received := s.received ++ [⟨r, a⟩] }
  | .idle => s
  | .busy _ => s

/-- Requester `r` offers a command, which is accepted only in Idle, with W empty (10_state.md R18, R19). In any other slot state
the command is not accepted and no step asks for it (60_exceptions.md R105, 93_implementation_defined.md I11; `Move.possible`, log 6). -/
def State.accept (s : State) (r : Nat) (cmd : Command) : State :=
  match s.slot r with
  | .idle => s.setSlot r (.busy ⟨cmd, []⟩)
  | .busy _ => s
  | .done _ => s

/-- Reset (70_reset_and_hazards.md R106): every slot goes to Idle and every record is discarded; the ROM and HOST_MEM stay. -/
def State.resetBlock (s : State) : State := { s with slots := [] }

/-- The set W of the command being run (10_state.md R19): empty outside Busy. -/
def State.written (s : State) : List Nat :=
  match s.slot s.turn.client with
  | .busy f => f.written
  | .idle => []
  | .done _ => []

/-- The requesters whose command is Busy. -/
def busyRequesters : Slots → List Nat
  | [] => []
  | (r, .busy _) :: rest => r :: busyRequesters rest
  | (_, .idle) :: rest => busyRequesters rest
  | (_, .done _) :: rest => busyRequesters rest

/-- One of a list of requesters, by a free choice that counts round the list; none of none. -/
def chosenRequester (rs : List Nat) (choice : Nat) : Option Nat := rs[choice % rs.length]?

end Sys2Proof.Machine
end

