-- ==== Sys2Proof/Machine/Operands.lean ====
section
/-! DEFINITION. Operand forms. Every operand is one unsigned 32-bit number used as it stands (30_encoding.md R46): it is not
sign-extended, scaled or shifted. SQRT's n and TLOOKUP's i are plain values; INITTABLE's are a count, an element address and a
capacity (R48), from which the element addresses are formed. -/

namespace Sys2Proof.Machine

/-- The value of an operand word (00_scope.md R8: unsigned). -/
def operand (w : Word) : Nat := w.toNat

/-- The address of buffer element `i`: base + i (20_memory.md R26, R31), exact. -/
def elementAddress (base : Word) (i : Nat) : Nat := operand base + i

/-- The index that INITTABLE's write step chooses (44_table_initializer.md R86): any i in {0, ..., N-1} without W, by the free
choice `pick`, which counts the indices not yet written and starts again past the last. -/
def chosenIndex (n : Nat) (written : List Nat) (pick : Nat) : Nat :=
  nthUnwritten written (pick % (n - written.length))

end Sys2Proof.Machine
end

