-- ==== Sys2Proof/Machine/Flags.lean ====
section
/-! DEFINITION. The block has no flags (10_state.md R15). Its only condition indications are the status codes of a response and
the conditions that raise them (60_exceptions.md R90), which stand here. -/

namespace Sys2Proof.Machine

/-- The code of a status (30_encoding.md R51). -/
def statusCode : Status → BitVec 8
  | .ok => 0x00
  | .eIllegal => 0x01
  | .eIndex => 0x02
  | .eBounds => 0x03

/-- STATUS = zext_32(s) (30_encoding.md R50): STATUS[31:8] is always zero. -/
def statusWord (s : Status) : Word := (statusCode s).setWidth 32

/-- The two words of a response, STATUS and RESULT (30_encoding.md R50). -/
def responseWords (r : Response) : Word × Word := (statusWord r.status, r.result)

/-- E_INDEX: the index A is greater than 100 (40_sqrt_table.md R60). -/
def indexOutOfTable (i : Word) : Bool := 100 < operand i

/-- The first condition of E_BOUNDS: N > cap (44_table_initializer.md R84). -/
def capacityExceeded (n cap : Word) : Bool := operand cap < operand n

/-- The second condition of E_BOUNDS: base + N > 2^32, exact (44_table_initializer.md R84). -/
def addressWraps (n base : Word) : Bool := 2 ^ 32 < operand base + operand n

/-- E_BOUNDS: either condition (44_table_initializer.md R84; both give the same code). -/
def boundsViolated (n base cap : Word) : Bool := capacityExceeded n cap || addressWraps n base

end Sys2Proof.Machine
end

