-- ==== Sys2Proof/Machine/RangeReducer.lean ====
section
/-! DEFINITION. The range_reducer: 41_range_reducer.md R61, R64, R65, on exact naturals (00_scope.md R7). -/

namespace Sys2Proof.Machine

/-- The outputs of range reduction (41_range_reducer.md R61). -/
structure Reduction where
  nn : Nat
  k : Nat
  pow100 : Nat
  pow10 : Nat
deriving DecidableEq, Repr

/-- One turn of R61's loop. -/
def reduceOnce (r : Reduction) : Reduction :=
  ⟨r.nn / Config.reduceBase, r.k + 1, r.pow100 * Config.reduceBase, r.pow10 * Config.scaleBase⟩

/-- R61's loop, `while nn > 99`, for at most the given number of turns. -/
def reduceLoop : Nat → Reduction → Reduction
  | 0, r => r
  | turns + 1, r => if r.nn > Config.reduceLimit then reduceLoop turns (reduceOnce r) else r

/-- `range_reduce(n)` (R61). The loop runs at most K_MAX = 4 times for a 32-bit n (R62, 00_scope.md R6; log 19). -/
def rangeReduce (n : Nat) : Reduction := reduceLoop Config.kMax ⟨n, 0, 1, 1⟩

/-- `delta`, the offset into the bucket (R64). -/
def bucketOffset (n : Nat) (r : Reduction) : Nat := n - r.nn * r.pow100

/-- `ratio16`, the position within the bucket (R65): the shift is exact and the division truncates. -/
def bucketPosition (delta pow100 : Nat) : Nat := (delta <<< Config.ratioFrac) / pow100

end Sys2Proof.Machine
end

