-- ==== Sys2Proof/Machine/TableInterpolator.lean ====
section
/-! DEFINITION. The table_interpolator: 42_table_interpolator.md R68, R69. -/

namespace Sys2Proof.Machine

/-- `interpolate(nn, ratio16)` (R69): the shift applies to the product only (90_conflicts.md C2), and at a bucket's edge the base
entry stands unmodified. -/
def interpolate (rom : Rom) (nn ratio16 : Nat) : Nat :=
  if 0 < ratio16 ∧ ratio16 < 0x10000 then
    rom.entry nn + (((rom.entry (nn + 1) - rom.entry nn) * ratio16) >>> Config.ratioFrac)
  else rom.entry nn

end Sys2Proof.Machine
end

