-- ==== Sys2Proof/Machine/Approximator.lean ====
section
/-! DEFINITION. The approximator sqrt_100 (43_approximator.md R74 to R76) and the meaning of SQRT (R73). -/

namespace Sys2Proof.Machine

/-- R75's exact case: a logical right shift by 12 (90_conflicts.md C1). -/
def rescaleExact (sqrtn : Nat) : Nat := sqrtn >>> Config.rescaleShift

/-- R76's reduced case: multiply by pow10 first, exactly, then shift right by 12 (decision D8). -/
def rescaleReduced (v pow10 : Nat) : Nat := (v * pow10) >>> Config.rescaleShift

/-- The exact result of `sqrt_100(n)` before it is narrowed (R74). -/
def sqrt100Exact (rom : Rom) (n : Nat) : Nat :=
  let r := rangeReduce n
  if r.nn = n then rescaleExact (rom.entry r.nn)
  else rescaleReduced (interpolate rom r.nn (bucketPosition (bucketOffset n r) r.pow100)) r.pow10

/-- `sqrt_100(n)` (R74), with `trunc_32` at its end. -/
def sqrt100 (rom : Rom) (n : Word) : Word := BitVec.ofNat 32 (sqrt100Exact rom (operand n))

/-- SQRT (R73): `respond(OK, sqrt_100(A))`. The operand words B and C are ignored (30_encoding.md R48). -/
def execSqrt (n _b _c : Word) (s : State) : Host.Outcome State Fault Refusal :=
  .next (s.respond .ok (sqrt100 s.rom n))

end Sys2Proof.Machine
end

