-- ==== Sys2Proof/Machine/TableInitializer.lean ====
section
/-! DEFINITION. The meaning of INITTABLE (44_table_initializer.md R83 to R88), one step of R86's sequence at a time. -/

namespace Sys2Proof.Machine

/-- The index the present step would write (R86). -/
def State.nextIndex (n : Word) (s : State) : Nat := chosenIndex (operand n) s.written s.turn.pick

/-- One write step (R86): `MemWrite(base + i, 4, sqrt_100(i))`, and i joins W. The command stays Busy. -/
def State.writeElement (n base cap : Word) (s : State) : State :=
  (s.storeWord (elementAddress base (s.nextIndex n)) (sqrt100 s.rom (BitVec.ofNat 32 (s.nextIndex n)))).setSlot
    s.turn.client (.busy ⟨encode (.inittable n base cap), insertIndex (s.nextIndex n) s.written⟩)

/-- One step of INITTABLE (R83, R86): E_BOUNDS before any write where a check of R84 fails (log 10); a write step while W is not
full (log 8); `respond(OK, 0)` once it is. -/
def execInittable (n base cap : Word) (s : State) : Host.Outcome State Fault Refusal :=
  if boundsViolated n base cap then raise .eBounds s
  else if s.written.length < operand n then .next (s.writeElement n base cap)
  else .next (s.respond .ok 0)

end Sys2Proof.Machine
end

