-- ==== Sys2Proof/Machine/TableLookup.lean ====
section
/-! DEFINITION. The meaning of TLOOKUP (40_sqrt_table.md R59, R60). -/

namespace Sys2Proof.Machine

/-- TLOOKUP (R59): E_INDEX where A > 100, else `respond(OK, T[A])`. The operand words B and C are ignored (30_encoding.md R48). -/
def execTlookup (i _b _c : Word) (s : State) : Host.Outcome State Fault Refusal :=
  if indexOutOfTable i then raise .eIndex s
  else .next (s.respond .ok (s.rom.word (operand i)))

end Sys2Proof.Machine
end

