-- ==== Sys2Proof/Machine/Dispatch.lean ====
section
/-! DEFINITION. One arm per operation of spec/opcode_table.json: what one step of the block does for a legal command. -/

namespace Sys2Proof.Machine

def exec (i : Instr) (s : State) : Host.Outcome State Fault Refusal :=
  match i with
  | .sqrt n b c => Sys2Proof.Machine.execSqrt n b c s
  | .tlookup index b c => Sys2Proof.Machine.execTlookup index b c s
  | .inittable n base cap => Sys2Proof.Machine.execInittable n base cap s

end Sys2Proof.Machine
end

