-- ==== Sys2Proof/Machine/Turn.lean ====
section
/-! DEFINITION. One turn of the machine: fetching the command of the slot whose turn it is, which move can be made, and carrying out
a move. -/

namespace Sys2Proof.Machine

/-- One step of the block for the command in the slot of the requester whose turn it is. The command's four words are decoded
(30_encoding.md R49); an illegal one is answered with E_ILLEGAL before anything else (60_exceptions.md R94). A slot that is not Busy
has no command to run, and no step asks for it (`Move.possible`, log 7). -/
def runTurn (s : State) : Host.Outcome State Fault Refusal :=
  match s.slot s.turn.client with
  | .busy f =>
    match decode f.cmd with
    | .ok i => exec i s
    | .error _ => raise .eIllegal s
  | .idle => .next s
  | .done _ => .next s

/-- Give requester `r`'s command the present step, with the free choice `pick`. -/
def State.giveTurn (s : State) (r pick : Nat) : State := { s with turn := ⟨r, pick⟩ }

/-- The slot is Idle: the one state in which a command is accepted (10_state.md R18). -/
def Slot.isIdle : Slot → Bool
  | .idle => true
  | .busy _ => false
  | .done _ => false

/-- The slot is Busy: it has a command to run (10_state.md R18). -/
def Slot.isBusy : Slot → Bool
  | .idle => false
  | .busy _ => true
  | .done _ => false

/-- The slot is Done: it has a response to take (10_state.md R18). -/
def Slot.isDone : Slot → Bool
  | .idle => false
  | .busy _ => false
  | .done _ => true

/-- Whether the spec has a step for a move in this state. A command is accepted only from Idle: in any other slot state there is no
move (10_state.md R18, 60_exceptions.md R105, 93_implementation_defined.md I11 "stuck"; log 6). A response can be taken only where there
is one, and only a Busy slot has a command to run (10_state.md R18; log 7). Memory may be written and reset asserted at any time
(60_exceptions.md R105). -/
def Move.possible (m : Move) (s : State) : Bool :=
  match m with
  | .issue r _ => (s.slot r).isIdle
  | .run r _ => (s.slot r).isBusy
  | .take r => (s.slot r).isDone
  | .hostWrite _ _ => true
  | .reset => true

/-- The first move of a list that can be made, with the moves that stay: those before it wait, in their order (log 6, log 7). -/
def firstPossible (s : State) : List Move → Option (Move × List Move)
  | [] => none
  | m :: rest => if m.possible s then some (m, rest) else (firstPossible s rest).map fun x => (x.1, m :: x.2)

/-- The move that the next step makes, with the moves that stay; none where none of the moves to come can be made. -/
def State.nextMove (s : State) : Option (Move × List Move) := firstPossible s s.moves

/-- Carry out one move (60_exceptions.md R102, R105). -/
def takeMove (m : Move) (s : State) : Host.Outcome State Fault Refusal :=
  match m with
  | .issue r cmd => .next (s.accept r cmd)
  | .run r pick => runTurn (s.giveTurn r pick)
  | .take r => .next (s.takeResponse r)
  | .hostWrite e v => .next (s.storeWord (operand e) v)
  | .reset => .next s.resetBlock

/-- One more of the block's own free choices is used. -/
def State.countDraw (s : State) : State := { s with draws := s.draws + 1 }

/-- With no move that can be made, the block goes on with one of the commands that are Busy (70_reset_and_hazards.md R114: every accepted
command completes); which one, and which element it writes, is free (log 5). With none Busy it waits (R109). -/
def silentTurn (s : State) : Host.Outcome State Fault Refusal :=
  match chosenRequester (busyRequesters s.slots) (Config.freeClient s.draws) with
  | some r => runTurn (s.countDraw.giveTurn r (Config.freePick s.draws))
  | none => .next s

/-- The state in which requester `r`'s slot holds an accepted command and the next move is a step of the block for it. -/
def State.loadCommand (s : State) (r : Nat) (cmd : Command) : State :=
  { s.setSlot r (.busy ⟨cmd, []⟩) with moves := .run r s.turn.pick :: s.moves }

end Sys2Proof.Machine
end

