-- ==== Sys2Proof/Machine/Step.lean ====
section
/-! DEFINITION. One step of the machine: the first of the moves to come that can be made, or the block's own next step where there is
none. -/

namespace Sys2Proof.Machine

/-- One step. -/
def step (s : State) : Host.Outcome State Fault Refusal :=
  match s.nextMove with
  | some (m, rest) => takeMove m { s with moves := rest }
  | none => silentTurn s

/-- The instruction of the opcode table whose bits are `w`, accepted in the slot of requester 0 and next to run (log 14). -/
def State.withFetchWord (s : State) (nbits w : Nat) : State := s.loadCommand 0 (tableCommand nbits w)

end Sys2Proof.Machine
end

