-- ==== Sys2Proof/Safety.lean ====
section
/-! DEFINITION. What counts as a state of the machine as it is built and launched, and the measures and predicates the statements
are made in. -/

namespace Sys2Proof.Machine

/-- On an error RESULT is 0 (30_encoding.md R52). -/
def Response.sound (a : Response) : Bool := a.status == .ok || a.result == 0

/-- Which set W a command in flight may have (10_state.md R19): indices below N for an INITTABLE that passed its checks, and none
for any other command. -/
def recordAllowed (cmd : Command) (written : List Nat) : Bool :=
  match decode cmd with
  | .ok (.sqrt _ _ _) => written.isEmpty
  | .ok (.tlookup _ _ _) => written.isEmpty
  | .ok (.inittable n base cap) =>
    written.isEmpty || (!boundsViolated n base cap && written.all fun i => decide (i < operand n))
  | .error _ => written.isEmpty

/-- A slot as the machine keeps it: W is a set in canonical form, and a response obeys R52. -/
def Slot.sound : Slot → Bool
  | .idle => true
  | .busy f => decide (f.written.Pairwise (· < ·)) && recordAllowed f.cmd f.written
  | .done a => a.sound

/-- The ROM holds its contents (40_sqrt_table.md R58). -/
abbrev State.romIntact (s : State) : Prop := s.rom = romContents

/-- The invariant of the machine: the ROM is intact, HOST_MEM and the slots are in canonical form, every slot is sound, and so is
every response that was taken. -/
abbrev State.Inv (s : State) : Prop :=
  s.romIntact ∧ Memory.wf s.mem ∧ Slots.wf s.slots ∧ (∀ c ∈ s.slots, c.2.sound = true) ∧
    ∀ x ∈ s.received, x.response.sound = true

/-- How many steps of the block a slot's command still needs (70_reset_and_hazards.md R114): one for SQRT, TLOOKUP and every
command that ends with an error, and for INITTABLE one for each element not yet written and one to complete. -/
def Slot.pending : Slot → Nat
  | .idle => 0
  | .done _ => 0
  | .busy f =>
    match decode f.cmd with
    | .ok (.sqrt _ _ _) => 1
    | .ok (.tlookup _ _ _) => 1
    | .ok (.inittable n base cap) => if boundsViolated n base cap then 1 else operand n - f.written.length + 1
    | .error _ => 1

/-- How many steps of the block the accepted commands still need together. -/
def State.pendingSteps (s : State) : Nat := (s.slots.map fun c => c.2.pending).sum

/-- No command is Busy. -/
def State.noneBusy (s : State) : Prop := ∀ r f, s.slot r ≠ .busy f

/-- A run has ended: every slot is Idle, and so no response remains to be taken (70_reset_and_hazards.md R116). -/
def State.runEnded (s : State) : Prop := ∀ r, s.slot r = .idle

/-- The responses requester `r` has taken, in its issue order (70_reset_and_hazards.md R116). -/
def State.responsesOf (s : State) (r : Nat) : List Response :=
  (s.received.filter fun x => x.requester == r).map Receipt.response

/-- The step from `s` to `t` is a step of the block for requester `r`: a run move for `r`, or, with no move that can be made, the
block's own step with the turn given to `r` (log 4, log 5). -/
def State.stepServed (s t : State) (r : Nat) : Prop :=
  t.turn.client = r ∧ (s.nextMove = none ∨ ∃ pick rest, s.nextMove = some (.run r pick, rest))

/-- No move to come can be made: every offer waits for its slot to be Idle, every take for a response and every run move for a Busy
slot (10_state.md R18, 60_exceptions.md R105; log 6, log 7). -/
def State.everyMoveWaits (s : State) : Prop :=
  ∀ m ∈ s.moves, (∃ r cmd, m = .issue r cmd ∧ s.slot r ≠ .idle) ∨ (∃ r, m = .take r ∧ ∀ a, s.slot r ≠ .done a) ∨
    ∃ r pick, m = .run r pick ∧ ∀ f, s.slot r ≠ .busy f

/-- Between `s` and `t` the command of requester `r` makes a write step at element `e` with the word `v`: it is an INITTABLE that passed
its checks, it stays Busy, and for an index i below N that is in W afterwards, e is base + i and v is that element's value
(10_state.md R22, 44_table_initializer.md R86). -/
def State.blockWrites (s t : State) (r e : Nat) (v : Word) : Prop :=
  ∃ f ws n base cap i, s.slot r = .busy f ∧ t.slot r = .busy ⟨f.cmd, ws⟩ ∧ decode f.cmd = .ok (.inittable n base cap) ∧
    boundsViolated n base cap = false ∧ i < operand n ∧ i ∈ ws ∧ e = elementAddress base i ∧
    v = sqrt100 s.rom (BitVec.ofNat 32 i)

/-- `t` differs from `s` in no state of the spec but the slot of requester `r`: the ROM, every word of host memory, the responses
taken and every other slot are as before. What the model's own fields hold is not said. -/
def State.sameOutsideSlot (s t : State) (r : Nat) : Prop :=
  t.rom = s.rom ∧ (∀ e, t.hostWord e = s.hostWord e) ∧ t.received = s.received ∧
    ∀ other, other ≠ r → t.slot other = s.slot other

/-- The model's own fields are as before: an instruction touches neither the moves to come, nor whose turn it is, nor the count of
free choices. -/
def State.sameModelFields (s t : State) : Prop := t.moves = s.moves ∧ t.turn = s.turn ∧ t.draws = s.draws

/-- The word nearest to sqrt(i) * 2^28 in 40_sqrt_table.md R55's exact integer form. -/
def roundedRoot (i : Nat) : Nat :=
  let x := i * 2 ^ 56
  let r := Nat.sqrt x
  if x - r * r > r then r + 1 else r

/-- The machine after `k` steps is `t`. -/
def State.reaches (s : State) (k : Nat) (t : State) : Prop := Host.Core.run Sys2Proof.core k s = .next t

end Sys2Proof.Machine
end

