-- ==== Sys2Proof/Certificates/Slice0/Obligations.lean ====
section
/-! DEFINITION. The statements for the provers. Each docstring names the rule of spec/ it formalises; where a clause rests on a decision
of the spec (92_eei_decisions.md D<n>) or on a choice of the model (log n), it says so. -/

open Sys2Proof Sys2Proof.Machine

/-! ### Encoding and decoding -/

/-- Encoding and decoding agree in both directions, for every operand value: each instruction's words decode to it, and a command
that decodes is exactly the words of what it decodes to. 30_encoding.md, Part 2; the encoding is the spec's own decision D2, D3. -/
def Obligations.DecodeAndEncodeAgree : Prop :=
  (∀ i, decode (encode i) = .ok i) ∧ ∀ c i, decode c = .ok i → encode i = c

/-- "A command is legal iff `CW[31:8] = 0` and `CW[7:0]` is 0x01, 0x02 or 0x03" (R49, the spec's own decision D6): exactly the legal
commands decode. -/
def Obligations.LegalCommandsDecode : Prop :=
  ∀ c : Command, (∃ i, decode c = .ok i) ↔
    c.cw.toNat / 256 = 0 ∧ (c.cw.toNat % 256 = 1 ∨ c.cw.toNat % 256 = 2 ∨ c.cw.toNat % 256 = 3)

/-- Words the spec writes out decode to what they stand for (R54 and the decode vectors of 95_test_vectors.md section 7). -/
def Obligations.SpecWordsDecode : Prop :=
  decode ⟨0x00000003, 0x0000000C, 0x00001000, 0x00000010⟩ = .ok (.inittable 12 0x1000 16) ∧
  assemble (.inittable 12 0x1000 16) = ⟨0x00000003, 0x0000000C, 0x00001000, 0x00000010⟩ ∧
  decode ⟨0x00000001, 4, 0x12345678, 0xFFFFFFFF⟩ = .ok (.sqrt 4 0x12345678 0xFFFFFFFF) ∧
  decode ⟨0x00000002, 0x65, 0, 0⟩ = .ok (.tlookup 101 0 0) ∧
  decode ⟨0x00000101, 0, 0, 0⟩ = .error .reservedBitsSet ∧
  decode ⟨0x00000004, 7, 0, 0⟩ = .error .reservedOpcode ∧
  decode ⟨0, 0, 0, 0⟩ = .error .reservedOpcode ∧
  decode ⟨0x80000001, 4, 0, 0⟩ = .error .reservedBitsSet

/-- STATUS holds the code of R51 in its low byte and zero above (R50), decisions D4 and D5. -/
def Obligations.StatusWordsAreTheCodes : Prop :=
  statusWord .ok = 0x00 ∧ statusWord .eIllegal = 0x01 ∧ statusWord .eIndex = 0x02 ∧ statusWord .eBounds = 0x03 ∧
  ∀ a : Response, (responseWords a).1.toNat < 256 ∧ (responseWords a).2 = a.result

/-! ### Steps -/

/-- A step runs the decoded instruction: where the next move is the block's step for a requester whose command decodes to `i`, the step
is `exec i`, with the move taken and the turn given to that requester. The moves and the turn are the model's own (log 3, log 4). -/
def Obligations.StepRunsTheDecodedInstruction : Prop :=
  ∀ (s : State) (r pick : Nat) (rest : List Move) (f : InFlight) (i : Instr),
    s.moves = .run r pick :: rest → s.slot r = .busy f → decode f.cmd = .ok i →
      step s = exec i { s with moves := rest, turn := ⟨r, pick⟩ }

/-- With no move that can be made the block runs the command of some Busy requester: which one, and with which free choice, is not said (log 5;
R102 and R114 leave it free). A command that decodes is executed; one that does not is answered with (E_ILLEGAL, 0) and nothing else of
the spec's state changes (R49, R92; decisions D6, D23; log 13). -/
def Obligations.SilentStepRunsSomeBusyCommand : Prop :=
  ∀ s : State, Slots.wf s.slots → s.everyMoveWaits → (∃ q g, s.slot q = .busy g) →
    ∃ r pick f, s.slot r = .busy f ∧
      (∀ i, decode f.cmd = .ok i → step s = exec i { s with turn := ⟨r, pick⟩, draws := s.draws + 1 }) ∧
      ((∀ i, decode f.cmd ≠ .ok i) →
        ∃ t, step s = .next t ∧ t.slot r = .done ⟨.eIllegal, 0⟩ ∧ s.sameOutsideSlot t r ∧
          t.moves = s.moves ∧ t.turn = ⟨r, pick⟩ ∧ t.draws = s.draws + 1)

/-- A word of the opcode table placed by `withFetchWord` runs as the very next step (the model's own, log 14). -/
def Obligations.FetchedWordRunsNext : Prop :=
  ∀ (s : State) (nbits w : Nat) (i : Instr), decodeTableWord nbits w = some i →
    step (s.withFetchWord nbits w) =
      exec i { s.setSlot 0 (.busy ⟨tableCommand nbits w, []⟩) with turn := ⟨0, s.turn.pick⟩ }

/-- Nothing stops the model: from every state, reachable or not, a step answers a next state. That no command faults, an error being a
status code after which the block carries on, is 60_exceptions.md R90 to R92, and that the model has no fault at all is log 21. An
offer to a slot that is not Idle, a take and a run with nothing there make no step and wait in the list of moves, which is the model's
own field (log 3, log 6, log 7); a step in which nothing at all can be done leaves the state as it is (R109; log 5). -/
def Obligations.EveryStepAnswersNext : Prop :=
  ∀ s : State, ∃ t, step s = .next t

/-- An illegal command completes with `respond(E_ILLEGAL, 0)` and has no other effect, whatever its operands (R49, R92; decisions D6,
D23); so decode comes before every check of an operation (R94). This is the step of a run move; SilentStepRunsSomeBusyCommand says the
same of the block's own step, with no move that can be made. -/
def Obligations.IllegalCommandAnswersEIllegal : Prop :=
  ∀ (s : State) (r pick : Nat) (rest : List Move) (f : InFlight),
    s.moves = .run r pick :: rest → s.slot r = .busy f →
    ¬(f.cmd.cw.toNat / 256 = 0 ∧ (f.cmd.cw.toNat % 256 = 1 ∨ f.cmd.cw.toNat % 256 = 2 ∨ f.cmd.cw.toNat % 256 = 3)) →
      ∃ t, step s = .next t ∧ t.slot r = .done ⟨.eIllegal, 0⟩ ∧ s.sameOutsideSlot t r ∧ t.moves = rest

/-- A command is accepted only in Idle, with W empty (R18, R19, decisions D13, D18). For an offer in any other slot state there is no
move, and the command is not accepted until the slot is Idle (R105, I11): the offer stays first in the list of moves, and the step is the
one the machine makes without it (the list is the model's own field, log 3, log 6). -/
def Obligations.CommandsAreAcceptedOnlyInIdle : Prop :=
  ∀ (s : State) (r : Nat) (cmd : Command) (rest : List Move), s.moves = .issue r cmd :: rest →
    (s.slot r = .idle →
      ∃ t, step s = .next t ∧ s.sameOutsideSlot t r ∧ t.moves = rest ∧ t.slot r = .busy ⟨cmd, []⟩) ∧
    (s.slot r ≠ .idle →
      ∃ t, step { s with moves := rest } = .next t ∧ step s = .next { t with moves := .issue r cmd :: t.moves })

/-- Taking a response hands it to its requester, in its issue order, and puts the slot in Idle, whether it reports success or an error
(R18, R97, R116, decisions D18, D22, D23). Where there is none to take, the take
waits in the list of moves and the step is the one the machine makes without it (the model's choice, log 7). -/
def Obligations.TakingAResponseFreesTheSlot : Prop :=
  ∀ (s : State) (r : Nat) (rest : List Move), s.moves = .take r :: rest →
    (∀ a, s.slot r = .done a →
      ∃ t, step s = .next t ∧ t.slot r = .idle ∧ t.responsesOf r = s.responsesOf r ++ [a] ∧
        t.moves = rest ∧ t.rom = s.rom ∧ (∀ e, t.hostWord e = s.hostWord e) ∧
        ∀ other, other ≠ r → t.slot other = s.slot other ∧ t.responsesOf other = s.responsesOf other) ∧
    ((∀ a, s.slot r ≠ .done a) →
      ∃ t, step { s with moves := rest } = .next t ∧ step s = .next { t with moves := .take r :: t.moves })

/-- Reset puts every slot in Idle and discards every record, without a response; the ROM and every word of host memory stay as they are
(R106 to R108, decision D20). That reset is one move is the model's choice (log 11). -/
def Obligations.ResetIdlesEverySlotAndKeepsMemory : Prop :=
  ∀ (s : State) (rest : List Move), s.moves = .reset :: rest →
    ∃ t, step s = .next t ∧ t.runEnded ∧ t.slots = [] ∧ t.rom = s.rom ∧ (∀ e, t.hostWord e = s.hostWord e) ∧
      t.received = s.received ∧ t.moves = rest

/-- Another agent's write puts its word at its element and changes nothing else (20_memory.md R34; log 22). -/
def Obligations.HostWriteChangesOneWord : Prop :=
  ∀ (s : State) (e v : Word) (rest : List Move), s.moves = .hostWrite e v :: rest →
    ∃ t, step s = .next t ∧ t.hostWord e.toNat = some v ∧ (∀ x, x ≠ e.toNat → t.hostWord x = s.hostWord x) ∧
      t.rom = s.rom ∧ t.received = s.received ∧ t.moves = rest ∧ ∀ r, t.slot r = s.slot r

/-- With nothing to do the block waits (R109, decision D20): no move to come that can be made, and no command Busy, above all with every
slot Idle. -/
def Obligations.IdleBlockWaits : Prop :=
  ∀ s : State, s.Inv → s.everyMoveWaits → s.noneBusy → step s = .next s

/-! ### The state after reset and what every step keeps -/

/-- After reset the ROM holds its contents, every slot is Idle and no record exists (R106, decisions D16, D20). -/
def Obligations.ResetStateIsAsTheSpecSays : Prop :=
  State.reset.rom = romContents ∧ State.reset.runEnded ∧ State.reset.slots = []

/-- The invariant holds at reset. -/
def Obligations.InvHoldsAtReset : Prop := State.reset.Inv

/-- Every step keeps the invariant: the ROM intact (R58), HOST_MEM canonical with every address one of 32 bits (R26), the slots canonical,
W a set of indices below N of an INITTABLE that passed its checks (R19), and RESULT 0 on every error (R52). -/
def Obligations.StepKeepsInv : Prop :=
  ∀ s t : State, s.Inv → step s = .next t → t.Inv

/-- "no command, reset or agent changes it" (R58): no step, from any state, changes the ROM (decision D16 puts it in a ROM). -/
def Obligations.NoStepChangesTheRom : Prop :=
  ∀ s t : State, step s = .next t → t.rom = s.rom

/-- A word of host memory changes in a step only if the step is the block's for a requester whose own INITTABLE, in flight and past its
checks, writes one of its elements there with that element's value, no other requester's slot changing, or if another agent wrote it. So
the block writes only inside the buffer of the INITTABLE it serves (R22, R87), and responses and those words are its only effects (R12).
That the other agent's write is a move of the model's list is the model's choice (log 3, log 22). -/
def Obligations.OnlyInittableWritesMemory : Prop :=
  ∀ (s t : State) (e : Nat), step s = .next t →
    t.hostWord e = s.hostWord e ∨
      (∃ r v, s.stepServed t r ∧ t.hostWord e = some v ∧ s.blockWrites t r e v ∧ ∀ other, other ≠ r → t.slot other = s.slot other) ∨
      ∃ a v rest, s.nextMove = some (.hostWrite a v, rest) ∧ a.toNat = e ∧ t.hostWord e = some v

/-- A requester's slot changes only by its own command, from Idle to Busy with W empty; by a step of the block for it, from Busy to the
same command with another W or to Done; by its own taking, from Done to Idle; or by reset, to Idle. So the slot goes round as R18 says
and commands of different requesters run independently (R102, decisions D18, D19). The moves and the turn that say whose step it is are
the model's own (log 3, log 4, log 5). -/
def Obligations.SlotsChangeOnlyByTheirOwnRequester : Prop :=
  ∀ (s t : State) (r : Nat), step s = .next t → t.slot r ≠ s.slot r →
    (∃ cmd rest, s.nextMove = some (.issue r cmd, rest) ∧ s.slot r = .idle ∧ t.slot r = .busy ⟨cmd, []⟩) ∨
      (s.stepServed t r ∧
        ∃ f, s.slot r = .busy f ∧ ((∃ a, t.slot r = .done a) ∨ ∃ ws, t.slot r = .busy ⟨f.cmd, ws⟩)) ∨
      (∃ rest a, s.nextMove = some (.take r, rest) ∧ s.slot r = .done a ∧ t.slot r = .idle) ∨
      ∃ rest, s.nextMove = some (.reset, rest) ∧ t.slot r = .idle

/-- "No command's result depends on any earlier command" (R21): equal commands return equal responses whatever else the two states hold,
and the word that an INITTABLE step writes is fixed by its address and the command's operands alone. -/
def Obligations.EqualCommandsAnswerAlike : Prop :=
  (∀ (i : Instr) (s s' t t' : State) (a a' : Response), s.romIntact → s'.romIntact →
    exec i s = .next t → exec i s' = .next t' →
    t.slot s.turn.client = .done a → t'.slot s'.turn.client = .done a' → a = a') ∧
  ∀ (s t : State) (n base cap : Word) (e : Nat), s.romIntact → exec (.inittable n base cap) s = .next t →
    t.hostWord e ≠ s.hostWord e →
      base.toNat ≤ e ∧ e < base.toNat + n.toNat ∧ t.hostWord e = some (sqrt100 romContents (BitVec.ofNat 32 (e - base.toNat)))

/-- On an error RESULT is 0 (R52, decision D4). -/
def Obligations.ErrorResultsAreZero : Prop :=
  ∀ (i : Instr) (s t : State) (a : Response), exec i s = .next t → t.slot s.turn.client = .done a →
    a.status ≠ .ok → a.result = 0

/-- An operand word that an operation ignores has no effect (R48, decision D6). -/
def Obligations.IgnoredOperandsHaveNoEffect : Prop :=
  ∀ (s : State) (a b b' c c' : Word),
    exec (.sqrt a b c) s = exec (.sqrt a b' c') s ∧ exec (.tlookup a b c) s = exec (.tlookup a b' c') s

/-! ### The table -/

/-- "Entry i of the table, for 0 <= i <= 100, is the 32-bit unsigned word nearest to sqrt(i) * 2^28" (R55), in the real numbers and in
the rule's exact integer form. -/
def Obligations.TableEntriesAreRoundedRoots : Prop :=
  ∀ i : Nat, i ≤ 100 →
    |((romContents.word i).toNat : ℝ) - Real.sqrt i * 2 ^ 28| < 1 / 2 ∧ (romContents.word i).toNat = roundedRoot i

/-- The properties of the table that R57 lists. -/
def Obligations.TableIsIncreasingWithDecreasingSteps : Prop :=
  (∀ i, i ≤ 10 → romContents.entry (i * i) = i * 2 ^ 28) ∧
  (∀ i, i ≤ 100 → romContents.entry i < 2 ^ 32 ∧ romContents.entry i ≤ 0xA0000000) ∧
  (∀ i, i ≤ 99 → romContents.entry i < romContents.entry (i + 1)) ∧
  (∀ i, i ≤ 98 → romContents.entry (i + 2) - romContents.entry (i + 1) < romContents.entry (i + 1) - romContents.entry i) ∧
  romContents.entry 1 - romContents.entry 0 = 0x10000000 ∧ romContents.entry 100 - romContents.entry 99 = 0x00CD5088

/-- TLOOKUP of an index up to 100 answers OK with the table's entry, the rounded root (R59, R55; that it is a command is decision D7),
and changes nothing but its slot. -/
def Obligations.TlookupAnswersTheEntry : Prop :=
  ∀ (s : State) (i b c : Word), s.romIntact → i.toNat ≤ 100 →
    ∃ t w, exec (.tlookup i b c) s = .next t ∧ t.slot s.turn.client = .done ⟨.ok, w⟩ ∧ w.toNat = roundedRoot i.toNat ∧
      s.sameOutsideSlot t s.turn.client ∧ s.sameModelFields t

/-- TLOOKUP of an index above 100 answers (E_INDEX, 0) and changes nothing else (R60, decision D7). -/
def Obligations.TlookupBeyondTheTableAnswersEIndex : Prop :=
  ∀ (s : State) (i b c : Word), 100 < i.toNat →
    ∃ t, exec (.tlookup i b c) s = .next t ∧ t.slot s.turn.client = .done ⟨.eIndex, 0⟩ ∧
      s.sameOutsideSlot t s.turn.client ∧ s.sameModelFields t

/-! ### The range reducer and the interpolator -/

/-- The outputs of range reduction for every 32-bit n, with the rows of R62's table, and R63: in the reduced case bucket 0 is never
used and the entry T[nn + 1] exists. -/
def Obligations.RangeReductionOutputs : Prop :=
  ∀ n : Nat, n < 2 ^ 32 →
    (rangeReduce n).nn = n / (rangeReduce n).pow100 ∧ (rangeReduce n).nn ≤ 99 ∧
    (rangeReduce n).pow100 = 100 ^ (rangeReduce n).k ∧ (rangeReduce n).pow10 = 10 ^ (rangeReduce n).k ∧
    (rangeReduce n).pow10 * (rangeReduce n).pow10 = (rangeReduce n).pow100 ∧
    (∀ j, j < (rangeReduce n).k → 99 < n / 100 ^ j) ∧
    ((rangeReduce n).k = 0 ↔ n ≤ 99) ∧ ((rangeReduce n).k = 1 ↔ 100 ≤ n ∧ n ≤ 9999) ∧
    ((rangeReduce n).k = 2 ↔ 10000 ≤ n ∧ n ≤ 999999) ∧ ((rangeReduce n).k = 3 ↔ 1000000 ≤ n ∧ n ≤ 99999999) ∧
    ((rangeReduce n).k = 4 ↔ 100000000 ≤ n) ∧ ((rangeReduce n).k = 4 → (rangeReduce n).nn ≤ 42) ∧
    ((rangeReduce n).nn = n ↔ n ≤ 99) ∧ (99 < n → 1 ≤ (rangeReduce n).nn)

/-- The bucket offset in the reduced case: `0 <= delta < pow100 <= 10^8`, no underflow, delta = n mod pow100 (R64). -/
def Obligations.BucketOffsetIsTheRemainder : Prop :=
  ∀ n : Nat, 99 < n → n < 2 ^ 32 →
    bucketOffset n (rangeReduce n) < (rangeReduce n).pow100 ∧ (rangeReduce n).pow100 ≤ 10 ^ 8 ∧
    (rangeReduce n).nn * (rangeReduce n).pow100 ≤ n ∧ bucketOffset n (rangeReduce n) = n % (rangeReduce n).pow100

/-- The bucket position: `ratio16` is a 16-bit fraction in [0, 1), 0 exactly where delta <= (pow100 - 1) div 65536, and it does not
decrease as delta grows (R43, R66). -/
def Obligations.BucketPositionIsAFraction : Prop :=
  ∀ delta pow100 : Nat, delta < pow100 →
    bucketPosition delta pow100 ≤ 0xFFFF ∧ (bucketPosition delta pow100 = 0 ↔ delta ≤ (pow100 - 1) / 65536) ∧
    ∀ more, delta ≤ more → bucketPosition delta pow100 ≤ bucketPosition more pow100

/-- Interpolation stays in its bucket, below T[100], and does not decrease as ratio16 grows (R70). -/
def Obligations.InterpolationStaysInItsBucket : Prop :=
  ∀ nn ratio16 : Nat, 1 ≤ nn → nn ≤ 99 → ratio16 ≤ 0xFFFF →
    romContents.entry nn ≤ interpolate romContents nn ratio16 ∧
    interpolate romContents nn ratio16 ≤ romContents.entry (nn + 1) - 1 ∧
    interpolate romContents nn ratio16 < 0xA0000000 ∧
    ∀ more, ratio16 ≤ more → more ≤ 0xFFFF → interpolate romContents nn ratio16 ≤ interpolate romContents nn more

/-- The fallback branch computes the same v as the interpolation formula, for every reduced-case input, since ratio16 < 0x10000 always
holds (R71). -/
def Obligations.FallbackAgreesWithTheFormula : Prop :=
  ∀ n : Nat, 99 < n → n < 2 ^ 32 →
    bucketPosition (bucketOffset n (rangeReduce n)) (rangeReduce n).pow100 < 0x10000 ∧
    interpolate romContents (rangeReduce n).nn (bucketPosition (bucketOffset n (rangeReduce n)) (rangeReduce n).pow100) =
      romContents.entry (rangeReduce n).nn +
        ((romContents.entry ((rangeReduce n).nn + 1) - romContents.entry (rangeReduce n).nn) *
          bucketPosition (bucketOffset n (rangeReduce n)) (rangeReduce n).pow100) / 65536

/-! ### SQRT -/

/-- SQRT answers OK for every n (R73, R91) with the one formula of R78, taken at the least k with n div 100^k <= 99; nothing is lost in
the narrowing (R77). Multiply before shift is the spec's own decision D8. Only the client's slot changes. -/
def Obligations.SqrtAnswersTheFormula : Prop :=
  ∀ (s : State) (n b c : Word), s.romIntact →
    ∃ t w k nn ratio16, k ≤ 4 ∧ nn = n.toNat / 100 ^ k ∧ nn ≤ 99 ∧ (∀ j, j < k → 99 < n.toNat / 100 ^ j) ∧
      ratio16 = ((n.toNat % 100 ^ k) * 65536) / 100 ^ k ∧
      exec (.sqrt n b c) s = .next t ∧ t.slot s.turn.client = .done ⟨.ok, w⟩ ∧
      w.toNat = ((romContents.entry nn + ((romContents.entry (nn + 1) - romContents.entry nn) * ratio16) / 65536) * 10 ^ k) / 4096 ∧
      s.sameOutsideSlot t s.turn.client ∧ s.sameModelFields t

/-- Exact case: for n <= 99 SQRT answers T[n] shifted right by 12, a logical shift of the unsigned word (R75, 90_conflicts.md C1). -/
def Obligations.SqrtExactCaseShiftsTheEntry : Prop :=
  ∀ (s : State) (n b c : Word), s.romIntact → n.toNat ≤ 99 →
    ∃ t, exec (.sqrt n b c) s = .next t ∧
      t.slot s.turn.client = .done ⟨.ok, (romContents.word n.toNat).ushiftRight 12⟩ ∧
      s.sameOutsideSlot t s.turn.client ∧ s.sameModelFields t

/-- SQRT raises no error from any state and for any operand: the command always completes with status OK, and writes no memory (R91,
R82). -/
def Obligations.SqrtNeverErrs : Prop :=
  ∀ (s : State) (n b c : Word), ∃ t w, exec (.sqrt n b c) s = .next t ∧ t.slot s.turn.client = .done ⟨.ok, w⟩ ∧
    s.sameOutsideSlot t s.turn.client ∧ s.sameModelFields t

/-- "Monotonicity: for all `a < b` (unsigned), `sqrt_100(a) ≤ sqrt_100(b)`" (R80). -/
def Obligations.SqrtIsMonotone : Prop :=
  ∀ a b : Word, a.toNat < b.toNat → (sqrt100 romContents a).toNat ≤ (sqrt100 romContents b).toNat

/-- The result before narrowing is at most 0xFFFFC6C8 for every 32-bit n, so it fits, and it is that for the largest n (R77). -/
def Obligations.SqrtNeverOverflows : Prop :=
  (∀ n : Word, sqrt100Exact romContents n.toNat ≤ 0xFFFFC6C8) ∧ sqrt100 romContents 0xFFFFFFFF = 0xFFFFC6C8 ∧
    ∀ n : Word, (sqrt100 romContents n).toNat = sqrt100Exact romContents n.toNat

/-- The exact values of R79: sqrt_100(i*i) is i exactly for i = 0 .. 10 and at the multiples of 10 up to 100, and for no other i up to 100
is it within one ulp (90_conflicts.md C4). -/
def Obligations.SqrtIsExactAtTheseSquares : Prop :=
  (∀ i, i ≤ 100 → (i ≤ 10 ∨ i % 10 = 0) → sqrt100Exact romContents (i * i) = i * 65536) ∧
  ∀ i, i ≤ 100 → 10 < i → i % 10 ≠ 0 → sqrt100Exact romContents (i * i) + 1 < i * 65536

/-- Exact case accuracy: below one ulp of the real root for n <= 99 (R81). -/
def Obligations.SqrtExactCaseIsWithinOneUlp : Prop :=
  ∀ n : Word, n.toNat ≤ 99 → |((sqrt100 romContents n).toNat : ℝ) - Real.sqrt n.toNat * 2 ^ 16| < 1

/-- Accuracy over every input: the relative error of the measure §8 uses stays below 1.5 %, and at n = 141416931 it is above 1.48 %, so
no tolerance of 0.1 % holds (90_conflicts.md C3). R81 gives 0.0148339 as the largest; the two bounds are the model's rounding of it. -/
def Obligations.SqrtRelativeErrorIsBounded : Prop :=
  (∀ n : Word,
    |((sqrt100 romContents n).toNat : ℝ) / 2 ^ 16 - Real.sqrt n.toNat| ≤ 15 / 1000 * max 1 (Real.sqrt n.toNat)) ∧
  148 / 10000 * Real.sqrt 141416931 <
    |((sqrt100 romContents 141416931).toNat : ℝ) / 2 ^ 16 - Real.sqrt 141416931|

/-- Values from 95_test_vectors.md sections 4 and 9 at the points where the rejected readings differ. -/
def Obligations.SqrtValuesOfTheSpec : Prop :=
  sqrt100 romContents 64 = 0x00080000 ∧ sqrt100 romContents 99 = 0x0009F32A ∧ sqrt100 romContents 100 = 0x000A0000 ∧
  sqrt100 romContents 101 = 0x000A0A99 ∧ sqrt100 romContents 150 = 0x000C1231 ∧ sqrt100 romContents 12345 = 0x006DB693 ∧
  sqrt100 romContents 1000016 = 0x03E8019E ∧ sqrt100 romContents 103628541 = 0x27A64C8D ∧
  sqrt100 romContents 141416931 = 0x2DC37B72 ∧ sqrt100 romContents 4294967295 = 0xFFFFC6C8

/-! ### INITTABLE -/

/-- INITTABLE whose count exceeds the capacity, or whose range would pass the top address, answers (E_BOUNDS, 0) and changes nothing
else: no word of memory (R84, R85; the second condition is decision D11). -/
def Obligations.InittableOutOfBoundsWritesNothing : Prop :=
  ∀ (s : State) (n base cap : Word), (cap.toNat < n.toNat ∨ 2 ^ 32 < base.toNat + n.toNat) →
    ∃ t, exec (.inittable n base cap) s = .next t ∧ t.slot s.turn.client = .done ⟨.eBounds, 0⟩ ∧
      s.sameOutsideSlot t s.turn.client ∧ s.sameModelFields t

/-- A write step: while W is not full, an INITTABLE that passes its checks writes sqrt_100(i) at base + i for one i below N that is not
in W, and i joins W; every other word of memory is unchanged (R86, R87; steps are decision D13). -/
def Obligations.InittableWritesOneElementAStep : Prop :=
  ∀ (s : State) (n base cap : Word) (ws : List Nat), s.Inv →
    s.slot s.turn.client = .busy ⟨encode (.inittable n base cap), ws⟩ →
    n.toNat ≤ cap.toNat → base.toNat + n.toNat ≤ 2 ^ 32 → (∃ j, j < n.toNat ∧ j ∉ ws) →
      ∃ t i ws', exec (.inittable n base cap) s = .next t ∧ i < n.toNat ∧ i ∉ ws ∧
        t.hostWord (base.toNat + i) = some (sqrt100 romContents (BitVec.ofNat 32 i)) ∧
        (∀ e, e ≠ base.toNat + i → t.hostWord e = s.hostWord e) ∧
        t.slot s.turn.client = .busy ⟨encode (.inittable n base cap), ws'⟩ ∧ (∀ j, j ∈ ws' ↔ j = i ∨ j ∈ ws) ∧
        t.rom = s.rom ∧ t.received = s.received ∧ s.sameModelFields t ∧
        ∀ other, other ≠ s.turn.client → t.slot other = s.slot other

/-- Every order is admitted: whichever element is not yet written, some value of the free choice writes it next (R33, R86, decision
D13). -/
def Obligations.InittableMayWriteAnyElementNext : Prop :=
  ∀ (s : State) (r : Nat) (n base cap : Word) (ws : List Nat) (i : Nat), s.Inv →
    s.slot r = .busy ⟨encode (.inittable n base cap), ws⟩ →
    n.toNat ≤ cap.toNat → base.toNat + n.toNat ≤ 2 ^ 32 → i < n.toNat → i ∉ ws →
      ∃ pick t, exec (.inittable n base cap) { s with turn := ⟨r, pick⟩ } = .next t ∧
        t.hostWord (base.toNat + i) = some (sqrt100 romContents (BitVec.ofNat 32 i)) ∧
        (∀ e, e ≠ base.toNat + i → t.hostWord e = s.hostWord e) ∧
        ∃ ws', t.slot r = .busy ⟨encode (.inittable n base cap), ws'⟩ ∧ ∀ j, j ∈ ws' ↔ j = i ∨ j ∈ ws

/-- Once W is full INITTABLE answers (OK, 0), and that step changes no word of memory (R86, R52, decision D4). -/
def Obligations.InittableCompletesWhenAllIsWritten : Prop :=
  ∀ (s : State) (n base cap : Word) (ws : List Nat), s.Inv →
    s.slot s.turn.client = .busy ⟨encode (.inittable n base cap), ws⟩ →
    n.toNat ≤ cap.toNat → base.toNat + n.toNat ≤ 2 ^ 32 → (∀ j, j < n.toNat → j ∈ ws) →
      ∃ t, exec (.inittable n base cap) s = .next t ∧ t.slot s.turn.client = .done ⟨.ok, 0⟩ ∧
        s.sameOutsideSlot t s.turn.client ∧ s.sameModelFields t

/-- The frame of INITTABLE from every state: at most the word at the computed element address changes, and none where the step
answers; the ROM, the responses taken, the other slots and the model's own fields are unchanged (R87, R22). -/
def Obligations.InittableFrame : Prop :=
  ∀ (s t : State) (n base cap : Word), exec (.inittable n base cap) s = .next t →
    (∀ e, e ≠ elementAddress base (s.nextIndex n) → t.hostWord e = s.hostWord e) ∧
    (∀ a, t.slot s.turn.client = .done a → ∀ e, t.hostWord e = s.hostWord e) ∧
    t.rom = s.rom ∧ t.received = s.received ∧ s.sameModelFields t ∧
    ∀ other, other ≠ s.turn.client → t.slot other = s.slot other

/-- N = 0 passes both checks for every base and capacity, writes nothing and answers (OK, 0) (R88). -/
def Obligations.InittableOfNothingSucceeds : Prop :=
  ∀ (s : State) (base cap : Word),
    ∃ t, exec (.inittable 0 base cap) s = .next t ∧ t.slot s.turn.client = .done ⟨.ok, 0⟩ ∧
      s.sameOutsideSlot t s.turn.client ∧ s.sameModelFields t

/-- The whole command, in whatever order the free choices give: from acceptance, N write steps and a completion step end in (OK, 0) with
`buffer[i] = sqrt_100(i)` for every i < N and every other word as it was (R34, R83, R86, R87, R114; decisions D13, D22), in a run whose
moves serve only this requester (the moves and the picks are the model's own, log 3, log 4). -/
def Obligations.InittableFillsTheBufferInAnyOrder : Prop :=
  ∀ (s : State) (r : Nat) (n base cap : Word) (picks : List Nat) (pick : Nat) (rest : List Move), s.Inv →
    s.slot r = .busy ⟨encode (.inittable n base cap), []⟩ →
    n.toNat ≤ cap.toNat → base.toNat + n.toNat ≤ 2 ^ 32 → picks.length = n.toNat →
    s.moves = picks.map (Move.run r) ++ .run r pick :: rest →
      ∃ t, s.reaches (n.toNat + 1) t ∧ t.slot r = .done ⟨.ok, 0⟩ ∧
        (∀ i, i < n.toNat → t.hostWord (base.toNat + i) = some (sqrt100 romContents (BitVec.ofNat 32 i))) ∧
        (∀ e, (e < base.toNat ∨ base.toNat + n.toNat ≤ e) → t.hostWord e = s.hostWord e) ∧
        t.rom = s.rom ∧ t.received = s.received ∧ t.moves = rest ∧ ∀ other, other ≠ r → t.slot other = s.slot other

/-- A reset during INITTABLE leaves any subset W written: for every set of indices below N some run writes exactly those elements, each
with its value, before a reset that leaves the slot Idle; every other word is as it was (R108, decision D20). That the free choices are
picks and that reset is one move are the model's choices (log 4, log 11). -/
def Obligations.ResetMayLeaveAnySubsetWritten : Prop :=
  ∀ (s : State) (r : Nat) (n base cap : Word) (subset : List Nat), s.Inv →
    s.slot r = .busy ⟨encode (.inittable n base cap), []⟩ →
    n.toNat ≤ cap.toNat → base.toNat + n.toNat ≤ 2 ^ 32 → subset.Nodup → (∀ i ∈ subset, i < n.toNat) →
      ∃ (picks : List Nat) (t : State), State.reaches { s with moves := picks.map (Move.run r) ++ [.reset] } (picks.length + 1) t ∧
        t.slot r = .idle ∧ t.received = s.received ∧
        (∀ i ∈ subset, t.hostWord (base.toNat + i) = some (sqrt100 romContents (BitVec.ofNat 32 i))) ∧
        ∀ e, (∀ i ∈ subset, e ≠ base.toNat + i) → t.hostWord e = s.hostWord e

/-- The start of program P5 of 95_test_vectors.md: two accepted INITTABLEs with overlapping buffers, requesters 1 and 2. -/
def Sys2Proof.Machine.overlapStart (moves : List Move) : State :=
  { State.reset with
    mem := [(0x40, 0xFFFFFFFF), (0x41, 0xFFFFFFFF), (0x42, 0xFFFFFFFF), (0x43, 0xFFFFFFFF), (0x44, 0xFFFFFFFF), (0x45, 0xFFFFFFFF)]
    slots := [(1, .busy ⟨encode (.inittable 4 0x40 4), []⟩), (2, .busy ⟨encode (.inittable 4 0x42 4), []⟩)]
    moves := moves }

/-- A race (program P5; R38, decision D19): every combination of the two values at the two raced words is the end of some interleaving,
with both commands answered OK, and at the end of any interleaving of the block's steps the raced words hold one of the two values and
the others the value of the one command that writes them. -/
def Obligations.OverlappingBuffersRace : Prop :=
  (∀ v ∈ [0x00016A09#32, 0x00000000#32], ∀ w ∈ [0x0001BB67#32, 0x00010000#32], ∃ moves t, (overlapStart moves).reaches 10 t ∧
    t.slot 1 = .done ⟨.ok, 0⟩ ∧ t.slot 2 = .done ⟨.ok, 0⟩ ∧ t.hostWord 0x42 = some v ∧ t.hostWord 0x43 = some w) ∧
  ∀ (moves : List Move) (k : Nat) (t : State), (∀ m ∈ moves, ∃ r pick, m = .run r pick) → (overlapStart moves).reaches k t →
    t.slot 1 = .done ⟨.ok, 0⟩ → t.slot 2 = .done ⟨.ok, 0⟩ →
      t.hostWord 0x40 = some 0x00000000 ∧ t.hostWord 0x41 = some 0x00010000 ∧
      (t.hostWord 0x42 = some 0x00016A09 ∨ t.hostWord 0x42 = some 0x00000000) ∧
      (t.hostWord 0x43 = some 0x0001BB67 ∨ t.hostWord 0x43 = some 0x00010000) ∧
      t.hostWord 0x44 = some 0x00016A09 ∧ t.hostWord 0x45 = some 0x0001BB67

/-- Every accepted command completes after finitely many steps of the block (R114, decision D22): with no move to come, after as many
steps as the accepted commands still need, every slot that was Busy is Done with a response, every other slot is as it was, and so none is
Busy, whichever of them each step serves (log 5). -/
def Obligations.EveryAcceptedCommandCompletes : Prop :=
  ∀ s : State, s.Inv → s.moves = [] → ∃ t, s.reaches s.pendingSteps t ∧ t.noneBusy ∧ t.moves = [] ∧
    (∀ r f, s.slot r = .busy f → ∃ a, t.slot r = .done a) ∧ ∀ r, (∀ f, s.slot r ≠ .busy f) → t.slot r = s.slot r

/-! ### The host's view of a word -/

/-- "element e occupies the bytes 4e .. 4e+3" (R27, decision D14), in either byte order. -/
def Obligations.ElementsAreFourBytes : Prop :=
  ∀ (s : State) (e j : Nat) (w : Word), s.hostWord e = some w → j < 4 →
    (∃ x, s.hostByte .little (4 * e + j) = some x ∧ x.toNat = w.toNat / 256 ^ j % 256) ∧
    ∃ x, s.hostByte .big (4 * e + j) = some x ∧ x.toNat = w.toNat / 256 ^ (3 - j) % 256

/-! ### INITTABLE's buffer -/

/-- "INITTABLE writes no address outside [base, base + N). Elements base + N .. base + cap - 1 of the buffer keep their values." (R87):
so says every step of it, from every state, and once it has answered nothing of the command is kept (R87's "does not retain a
reference"): the slot holds the response alone and no set W. -/
def Obligations.InittableWritesNothingOutsideItsBuffer : Prop :=
  ∀ (s : State) (n base cap : Word),
    ∃ t, exec (.inittable n base cap) s = .next t ∧
      (∀ e, (e < base.toNat ∨ base.toNat + n.toNat ≤ e) → t.hostWord e = s.hostWord e) ∧
      (∀ j, n.toNat ≤ j → j < cap.toNat → t.hostWord (base.toNat + j) = s.hostWord (base.toNat + j)) ∧
      ∀ a, t.slot s.turn.client = .done a → t.written = []

/-! ### Moves that wait -/

/-- A move for which the spec has no step makes none, wherever it stands among the moves to come: the step is the one the machine makes
without it, and the move is still there after it, in its place. So an offer to a slot that is not Idle is not accepted and not lost
(R105, I11, R18; the list is the model's own field, log 3, log 6), and a take and a run wait likewise (the model's choice, log 7). -/
def Obligations.MovesWithoutAStepWait : Prop :=
  ∀ (s : State) (before after : List Move) (m : Move), s.moves = before ++ m :: after →
    ((∃ r cmd, m = .issue r cmd ∧ s.slot r ≠ .idle) ∨ (∃ r, m = .take r ∧ ∀ a, s.slot r ≠ .done a) ∨
      ∃ r pick, m = .run r pick ∧ ∀ f, s.slot r ≠ .busy f) →
      ∃ t left right, step { s with moves := before ++ after } = .next t ∧ t.moves = left ++ right ∧
        left.Sublist before ∧ right.Sublist after ∧ step s = .next { t with moves := left ++ m :: right }
end

