-- ==== Sys2Proof/Laws/Sparse.lean ====
section
/-! SUPPORT. The laws of the finite maps and of the index sets: read after write, and that every operation keeps the canonical
form. -/

namespace Sys2Proof.Machine

namespace Sparse

variable {α : Type}

@[simp] theorem read_nil (key : Nat) : read ([] : List (Nat × α)) key = none := rfl

theorem read_write (m : List (Nat × α)) (key other : Nat) (x : α) :
    read (write m key x) other = if key = other then some x else read m other := by
  induction m with
  | nil => simp [write, read]
  | cons entry rest ih =>
    obtain ⟨k, v⟩ := entry
    by_cases below : key < k
    · simp [write, read, below]
    · by_cases same : key = k
      · subst same
        simp only [write, read, Nat.lt_irrefl, if_false, if_true]
        split_ifs <;> rfl
      · simp only [write, below, same, if_false, read, ih]
        split_ifs <;> first | rfl | omega

@[simp] theorem read_write_same (m : List (Nat × α)) (key : Nat) (x : α) : read (write m key x) key = some x := by
  simp [read_write]

theorem read_write_other (m : List (Nat × α)) {key other : Nat} (x : α) (h : key ≠ other) :
    read (write m key x) other = read m other := by
  simp [read_write, h]

theorem read_erase (m : List (Nat × α)) (key other : Nat) :
    read (erase m key) other = if key = other then none else read m other := by
  induction m with
  | nil => simp [erase]
  | cons entry rest ih =>
    obtain ⟨k, v⟩ := entry
    simp only [erase, List.filter_cons] at ih ⊢
    by_cases same : k = key
    · subst same
      simp only [bne_self_eq_false, Bool.false_eq_true, if_false, ih, read]
      split_ifs <;> rfl
    · simp only [bne_iff_ne, ne_eq, same, not_false_eq_true, if_true, read, ih]
      split_ifs <;> first | rfl | omega

theorem mem_of_read {m : List (Nat × α)} {key : Nat} {x : α} (h : read m key = some x) : (key, x) ∈ m := by
  induction m with
  | nil => simp at h
  | cons entry rest ih =>
    obtain ⟨k, v⟩ := entry
    simp only [read] at h
    split_ifs at h with same
    · simp_all
    · exact .tail _ (ih h)

theorem mem_write {m : List (Nat × α)} {key : Nat} {x : α} {c : Nat × α} (h : c ∈ write m key x) :
    c = (key, x) ∨ c ∈ m := by
  induction m with
  | nil => simpa [write] using h
  | cons entry rest ih =>
    obtain ⟨k, v⟩ := entry
    simp only [write] at h
    split_ifs at h with below same
    · simpa using h
    · rcases List.mem_cons.mp h with rfl | inside
      · exact .inl rfl
      · exact .inr (.tail _ inside)
    · rcases List.mem_cons.mp h with rfl | inside
      · exact .inr (.head _)
      · exact (ih inside).imp id (.tail _)

theorem mem_erase {m : List (Nat × α)} {key : Nat} {c : Nat × α} (h : c ∈ erase m key) : c ∈ m :=
  List.mem_of_mem_filter h

theorem rising_cons (entry : Nat × α) (rest : List (Nat × α)) :
    rising (entry :: rest) ↔ (∀ c ∈ rest, entry.1 < c.1) ∧ rising rest := by
  simp [rising, List.pairwise_cons]

theorem write_keeps_rising {m : List (Nat × α)} (h : rising m) (key : Nat) (x : α) : rising (write m key x) := by
  induction m with
  | nil => simp [write, rising]
  | cons entry rest ih =>
    obtain ⟨k, v⟩ := entry
    obtain ⟨above, tail⟩ := (rising_cons _ _).mp h
    simp only [write]
    split_ifs with below same
    · refine (rising_cons _ _).mpr ⟨fun c hc => ?_, h⟩
      rcases List.mem_cons.mp hc with rfl | inside
      · exact below
      · exact below.trans (above c inside)
    · exact (rising_cons _ _).mpr ⟨fun c hc => same ▸ above c hc, tail⟩
    · refine (rising_cons _ _).mpr ⟨fun c hc => ?_, ih tail⟩
      rcases mem_write hc with rfl | inside
      · show k < key
        omega
      · exact above c inside

theorem erase_keeps_rising {m : List (Nat × α)} (h : rising m) (key : Nat) : rising (erase m key) :=
  h.sublist (List.filter_sublist.map Prod.fst)

/-- In a rising list an entry is what its key reads as. -/
theorem read_of_mem {m : List (Nat × α)} (h : rising m) {key : Nat} {x : α} (inside : (key, x) ∈ m) :
    read m key = some x := by
  induction m with
  | nil => simp at inside
  | cons entry rest ih =>
    obtain ⟨k, v⟩ := entry
    obtain ⟨above, tail⟩ := (rising_cons _ _).mp h
    simp only [read]
    rcases List.mem_cons.mp inside with same | deeper
    · simp_all
    · have := above _ deeper
      rw [if_neg (by simp at this; omega), ih tail deeper]

/-- Two rising lists that read alike are equal: the canonical form. -/
theorem ext_of_read {m m' : List (Nat × α)} (h : rising m) (h' : rising m') (alike : ∀ key, read m key = read m' key) :
    m = m' := by
  have strict : ∀ {l : List (Nat × α)}, rising l → l.Pairwise fun a b => a.1 < b.1 :=
    fun hl => List.pairwise_map.mp hl
  have nodup : ∀ {l : List (Nat × α)}, rising l → l.Nodup :=
    fun hl => (strict hl).imp fun {a b} hab e => by subst e; exact Nat.lt_irrefl _ hab
  refine List.Perm.eq_of_pairwise (le := fun a b => a.1 < b.1) (fun a b _ _ hab hba => absurd hba (Nat.lt_asymm hab))
    (strict h) (strict h') ((List.perm_ext_iff_of_nodup (nodup h) (nodup h')).mpr fun c => ⟨fun hc => ?_, fun hc => ?_⟩)
  · exact mem_of_read (by rw [← alike, read_of_mem h hc])
  · exact mem_of_read (by rw [alike, read_of_mem h' hc])

end Sparse

theorem mem_insertIndex (i j : Nat) (ws : List Nat) : j ∈ insertIndex i ws ↔ j = i ∨ j ∈ ws := by
  induction ws with
  | nil => simp [insertIndex]
  | cons w ws ih =>
    simp only [insertIndex]
    split_ifs with below same
    · simp
    · subst same; simp
    · simp only [List.mem_cons, ih]; tauto

theorem insertIndex_keeps_rising {ws : List Nat} (h : ws.Pairwise (· < ·)) (i : Nat) :
    (insertIndex i ws).Pairwise (· < ·) := by
  induction ws with
  | nil => simp [insertIndex]
  | cons w ws ih =>
    obtain ⟨above, tail⟩ := List.pairwise_cons.mp h
    simp only [insertIndex]
    split_ifs with below same
    · refine List.pairwise_cons.mpr ⟨fun j hj => ?_, h⟩
      rcases List.mem_cons.mp hj with rfl | inside
      · exact below
      · exact below.trans (above j inside)
    · exact h
    · refine List.pairwise_cons.mpr ⟨fun j hj => ?_, ih tail⟩
      rcases (mem_insertIndex i j ws).mp hj with rfl | inside
      · omega
      · exact above j inside

theorem length_insertIndex {i : Nat} {ws : List Nat} (fresh : i ∉ ws) : (insertIndex i ws).length = ws.length + 1 := by
  induction ws with
  | nil => rfl
  | cons w ws ih =>
    obtain ⟨other, deeper⟩ := not_or.mp (mt List.mem_cons.mpr fresh)
    simp only [insertIndex, if_neg other]
    split_ifs <;> simp [ih deeper]

/-- The counting skips at most as many numbers as the list holds. -/
theorem nthUnwritten_bounds (ws : List Nat) (k : Nat) : k ≤ nthUnwritten ws k ∧ nthUnwritten ws k ≤ k + ws.length := by
  induction ws generalizing k with
  | nil => simp [nthUnwritten]
  | cons w ws ih =>
    simp only [nthUnwritten, List.length_cons]
    split_ifs
    · omega
    · have := ih (k + 1); omega

theorem nthUnwritten_fresh {ws : List Nat} (h : ws.Pairwise (· < ·)) (k : Nat) : nthUnwritten ws k ∉ ws := by
  induction ws generalizing k with
  | nil => simp
  | cons w ws ih =>
    obtain ⟨above, tail⟩ := List.pairwise_cons.mp h
    simp only [nthUnwritten, List.mem_cons, not_or]
    split_ifs with below
    · exact ⟨by omega, fun inside => by have := above _ inside; omega⟩
    · exact ⟨by have := nthUnwritten_bounds ws (k + 1); omega, ih tail _⟩

/-- Every number that the list does not hold is counted: with `j` numbers of the list below it, at `i - j`. -/
theorem nthUnwritten_reaches {ws : List Nat} (h : ws.Pairwise (· < ·)) {i : Nat} (fresh : i ∉ ws) :
    ∃ j, j ≤ i ∧ j ≤ ws.length ∧ (∀ w ∈ ws.drop j, i < w) ∧ (∀ w ∈ ws.take j, w < i) ∧ nthUnwritten ws (i - j) = i := by
  suffices reach : ∀ (ws : List Nat) (skipped : Nat), ws.Pairwise (· < ·) → i ∉ ws → skipped ≤ i →
      (∀ w ∈ ws, skipped ≤ w) →
      ∃ j, skipped + j ≤ i ∧ j ≤ ws.length ∧ (∀ w ∈ ws.drop j, i < w) ∧ (∀ w ∈ ws.take j, w < i) ∧
        nthUnwritten ws (i - j) = i by
    obtain ⟨j, hj, rest⟩ := reach ws 0 h fresh (Nat.zero_le _) fun _ _ => Nat.zero_le _
    exact ⟨j, by omega, rest⟩
  intro ws
  induction ws with
  | nil => intro skipped _ _ hs _; exact ⟨0, by omega, by simp, by simp, by simp, by simp [nthUnwritten]⟩
  | cons w ws ih =>
    intro skipped h fresh hs low
    obtain ⟨above, tail⟩ := List.pairwise_cons.mp h
    obtain ⟨other, deeper⟩ := not_or.mp (mt List.mem_cons.mpr fresh)
    rcases Nat.lt_or_gt_of_ne other with below | beyond
    · refine ⟨0, by omega, by simp, fun v hv => ?_, by simp, by simp [nthUnwritten, below]⟩
      rcases List.mem_cons.mp hv with rfl | inside
      · exact below
      · exact below.trans (above v inside)
    · have ws_low := low w (.head _)
      obtain ⟨j, h1, h2, h3, h4, h5⟩ := ih (skipped + 1) tail deeper (by omega)
        fun v hv => by have := above v hv; omega
      refine ⟨j + 1, by omega, by simp; omega, by simpa using h3, fun v hv => ?_, ?_⟩
      · rcases List.mem_cons.mp (by simpa using hv) with rfl | inside
        · exact beyond
        · exact h4 v inside
      · have rank_low : i - (j + 1) ≥ w ∨ i - (j + 1) < w := by omega
        rcases rank_low with past | short
        · rw [nthUnwritten, if_neg (by omega), show i - (j + 1) + 1 = i - j by omega, h5]
        · exfalso
          -- the numbers of the list below `i` are at least as many as lie between `w` and `i`, not more
          have bound : (ws.take j).length ≤ i - (w + 1) := by
            have inRange : ∀ v ∈ ws.take j, w + 1 ≤ v ∧ v < i :=
              fun v hv => ⟨above v (List.mem_of_mem_take hv), h4 v hv⟩
            have nodup : (ws.take j).Nodup :=
              (tail.sublist (List.take_sublist _ _)).imp fun hab => Nat.ne_of_lt hab
            have sub : (ws.take j).toFinset ⊆ Finset.Ico (w + 1) i := fun v hv => by
              have := inRange v (by simpa using hv)
              simp; omega
            have := Finset.card_le_card sub
            rwa [List.toFinset_card_of_nodup nodup, Nat.card_Ico] at this
          have : (ws.take j).length = j := by simp; omega
          omega

end Sys2Proof.Machine
end

