-- ==== Sys2Proof/Laws/State.lean ====
section
/-! SUPPORT. Each field after each update of the state, true by rfl, so that no proof unfolds a record update. -/

namespace Sys2Proof.Machine

@[simp] theorem State.storeWord_rom (s : State) (e : Nat) (v : Word) : (s.storeWord e v).rom = s.rom := rfl
@[simp] theorem State.storeWord_slots (s : State) (e : Nat) (v : Word) : (s.storeWord e v).slots = s.slots := rfl
@[simp] theorem State.storeWord_mem (s : State) (e : Nat) (v : Word) : (s.storeWord e v).mem = Sparse.write s.mem e v := rfl
@[simp] theorem State.storeWord_received (s : State) (e : Nat) (v : Word) : (s.storeWord e v).received = s.received := rfl
@[simp] theorem State.storeWord_moves (s : State) (e : Nat) (v : Word) : (s.storeWord e v).moves = s.moves := rfl
@[simp] theorem State.storeWord_turn (s : State) (e : Nat) (v : Word) : (s.storeWord e v).turn = s.turn := rfl
@[simp] theorem State.storeWord_draws (s : State) (e : Nat) (v : Word) : (s.storeWord e v).draws = s.draws := rfl

@[simp] theorem State.setSlot_rom (s : State) (r : Nat) (x : Slot) : (s.setSlot r x).rom = s.rom := rfl
@[simp] theorem State.setSlot_slots (s : State) (r : Nat) (x : Slot) : (s.setSlot r x).slots = Slots.set s.slots r x := rfl
@[simp] theorem State.setSlot_mem (s : State) (r : Nat) (x : Slot) : (s.setSlot r x).mem = s.mem := rfl
@[simp] theorem State.setSlot_received (s : State) (r : Nat) (x : Slot) : (s.setSlot r x).received = s.received := rfl
@[simp] theorem State.setSlot_moves (s : State) (r : Nat) (x : Slot) : (s.setSlot r x).moves = s.moves := rfl
@[simp] theorem State.setSlot_turn (s : State) (r : Nat) (x : Slot) : (s.setSlot r x).turn = s.turn := rfl
@[simp] theorem State.setSlot_draws (s : State) (r : Nat) (x : Slot) : (s.setSlot r x).draws = s.draws := rfl

@[simp] theorem State.respond_rom (s : State) (st : Status) (v : Word) : (s.respond st v).rom = s.rom := rfl
@[simp] theorem State.respond_slots (s : State) (st : Status) (v : Word) : (s.respond st v).slots = Slots.set s.slots s.turn.client (.done ⟨st, v⟩) := rfl
@[simp] theorem State.respond_mem (s : State) (st : Status) (v : Word) : (s.respond st v).mem = s.mem := rfl
@[simp] theorem State.respond_received (s : State) (st : Status) (v : Word) : (s.respond st v).received = s.received := rfl
@[simp] theorem State.respond_moves (s : State) (st : Status) (v : Word) : (s.respond st v).moves = s.moves := rfl
@[simp] theorem State.respond_turn (s : State) (st : Status) (v : Word) : (s.respond st v).turn = s.turn := rfl
@[simp] theorem State.respond_draws (s : State) (st : Status) (v : Word) : (s.respond st v).draws = s.draws := rfl

@[simp] theorem State.resetBlock_rom (s : State) : (s.resetBlock).rom = s.rom := rfl
@[simp] theorem State.resetBlock_slots (s : State) : (s.resetBlock).slots = [] := rfl
@[simp] theorem State.resetBlock_mem (s : State) : (s.resetBlock).mem = s.mem := rfl
@[simp] theorem State.resetBlock_received (s : State) : (s.resetBlock).received = s.received := rfl
@[simp] theorem State.resetBlock_moves (s : State) : (s.resetBlock).moves = s.moves := rfl
@[simp] theorem State.resetBlock_turn (s : State) : (s.resetBlock).turn = s.turn := rfl
@[simp] theorem State.resetBlock_draws (s : State) : (s.resetBlock).draws = s.draws := rfl

@[simp] theorem State.giveTurn_rom (s : State) (r pick : Nat) : (s.giveTurn r pick).rom = s.rom := rfl
@[simp] theorem State.giveTurn_slots (s : State) (r pick : Nat) : (s.giveTurn r pick).slots = s.slots := rfl
@[simp] theorem State.giveTurn_mem (s : State) (r pick : Nat) : (s.giveTurn r pick).mem = s.mem := rfl
@[simp] theorem State.giveTurn_received (s : State) (r pick : Nat) : (s.giveTurn r pick).received = s.received := rfl
@[simp] theorem State.giveTurn_moves (s : State) (r pick : Nat) : (s.giveTurn r pick).moves = s.moves := rfl
@[simp] theorem State.giveTurn_turn (s : State) (r pick : Nat) : (s.giveTurn r pick).turn = ⟨r, pick⟩ := rfl
@[simp] theorem State.giveTurn_draws (s : State) (r pick : Nat) : (s.giveTurn r pick).draws = s.draws := rfl

@[simp] theorem State.countDraw_rom (s : State) : (s.countDraw).rom = s.rom := rfl
@[simp] theorem State.countDraw_slots (s : State) : (s.countDraw).slots = s.slots := rfl
@[simp] theorem State.countDraw_mem (s : State) : (s.countDraw).mem = s.mem := rfl
@[simp] theorem State.countDraw_received (s : State) : (s.countDraw).received = s.received := rfl
@[simp] theorem State.countDraw_moves (s : State) : (s.countDraw).moves = s.moves := rfl
@[simp] theorem State.countDraw_turn (s : State) : (s.countDraw).turn = s.turn := rfl
@[simp] theorem State.countDraw_draws (s : State) : (s.countDraw).draws = s.draws + 1 := rfl

@[simp] theorem State.writeElement_rom (s : State) (n base cap : Word) : (s.writeElement n base cap).rom = s.rom := rfl
@[simp] theorem State.writeElement_slots (s : State) (n base cap : Word) : (s.writeElement n base cap).slots = 
      Slots.set s.slots s.turn.client
        (.busy ⟨encode (.inittable n base cap), insertIndex (s.nextIndex n) s.written⟩) := rfl
@[simp] theorem State.writeElement_mem (s : State) (n base cap : Word) : (s.writeElement n base cap).mem = 
      Sparse.write s.mem (elementAddress base (s.nextIndex n)) (sqrt100 s.rom (BitVec.ofNat 32 (s.nextIndex n))) := rfl
@[simp] theorem State.writeElement_received (s : State) (n base cap : Word) : (s.writeElement n base cap).received = s.received := rfl
@[simp] theorem State.writeElement_moves (s : State) (n base cap : Word) : (s.writeElement n base cap).moves = s.moves := rfl
@[simp] theorem State.writeElement_turn (s : State) (n base cap : Word) : (s.writeElement n base cap).turn = s.turn := rfl
@[simp] theorem State.writeElement_draws (s : State) (n base cap : Word) : (s.writeElement n base cap).draws = s.draws := rfl

@[simp] theorem State.loadCommand_rom (s : State) (r : Nat) (cmd : Command) : (s.loadCommand r cmd).rom = s.rom := rfl
@[simp] theorem State.loadCommand_slots (s : State) (r : Nat) (cmd : Command) : (s.loadCommand r cmd).slots = Slots.set s.slots r (.busy ⟨cmd, []⟩) := rfl
@[simp] theorem State.loadCommand_mem (s : State) (r : Nat) (cmd : Command) : (s.loadCommand r cmd).mem = s.mem := rfl
@[simp] theorem State.loadCommand_received (s : State) (r : Nat) (cmd : Command) : (s.loadCommand r cmd).received = s.received := rfl
@[simp] theorem State.loadCommand_moves (s : State) (r : Nat) (cmd : Command) : (s.loadCommand r cmd).moves = .run r s.turn.pick :: s.moves := rfl
@[simp] theorem State.loadCommand_turn (s : State) (r : Nat) (cmd : Command) : (s.loadCommand r cmd).turn = s.turn := rfl
@[simp] theorem State.loadCommand_draws (s : State) (r : Nat) (cmd : Command) : (s.loadCommand r cmd).draws = s.draws := rfl

end Sys2Proof.Machine
end

