-- ==== Sys2Proof/Laws/Ops.lean ====
section
/-! SUPPORT. What each shared operation does, said once: reads after updates, the canonical forms, and the cases of every meaning
and of a step. Later proofs cite these instead of unfolding the operations. -/

namespace Sys2Proof.Machine

/-! ### Slots -/

theorem read_slotsSet (m : Slots) (r other : Nat) (x : Slot) :
    (Sparse.read (Slots.set m r x) other).getD .idle = if r = other then x else (Sparse.read m other).getD .idle := by
  cases x <;> simp only [Slots.set, Sparse.read_write, Sparse.read_erase] <;> split_ifs <;> rfl

@[simp] theorem slot_setSlot (s : State) (r other : Nat) (x : Slot) :
    (s.setSlot r x).slot other = if r = other then x else s.slot other :=
  read_slotsSet s.slots r other x

@[simp] theorem slot_respond (s : State) (st : Status) (v : Word) (other : Nat) :
    (s.respond st v).slot other = if s.turn.client = other then .done ⟨st, v⟩ else s.slot other :=
  slot_setSlot s _ _ _

@[simp] theorem slot_storeWord (s : State) (e : Nat) (v : Word) (r : Nat) : (s.storeWord e v).slot r = s.slot r := rfl

@[simp] theorem slot_giveTurn (s : State) (r pick other : Nat) : (s.giveTurn r pick).slot other = s.slot other := rfl

@[simp] theorem slot_countDraw (s : State) (r : Nat) : s.countDraw.slot r = s.slot r := rfl

@[simp] theorem slot_resetBlock (s : State) (r : Nat) : s.resetBlock.slot r = .idle := rfl

@[simp] theorem slot_writeElement (s : State) (n base cap : Word) (other : Nat) :
    (s.writeElement n base cap).slot other =
      if s.turn.client = other then
        .busy ⟨encode (.inittable n base cap), insertIndex (s.nextIndex n) s.written⟩
      else s.slot other :=
  slot_setSlot _ _ _ _

theorem slotsSet_keeps_wf {m : Slots} (h : Slots.wf m) (r : Nat) (x : Slot) : Slots.wf (Slots.set m r x) := by
  obtain ⟨rises, listed⟩ := h
  cases x with
  | idle => exact ⟨Sparse.erase_keeps_rising rises r, fun c hc => listed c (Sparse.mem_erase hc)⟩
  | busy f =>
    refine ⟨Sparse.write_keeps_rising rises r _, fun c hc => ?_⟩
    rcases Sparse.mem_write hc with rfl | inside
    · simp
    · exact listed c inside
  | done a =>
    refine ⟨Sparse.write_keeps_rising rises r _, fun c hc => ?_⟩
    rcases Sparse.mem_write hc with rfl | inside
    · simp
    · exact listed c inside

/-- A slot listed after an update is the new one or was listed before. -/
theorem mem_slotsSet {m : Slots} {r : Nat} {x : Slot} {c : Nat × Slot} (h : c ∈ Slots.set m r x) :
    c = (r, x) ∨ c ∈ m := by
  cases x with
  | idle => exact .inr (Sparse.mem_erase h)
  | busy f => exact Sparse.mem_write h
  | done a => exact Sparse.mem_write h

/-- A slot that is not Idle is listed. -/
theorem mem_slots_of_slot {s : State} {r : Nat} {x : Slot} (h : s.slot r = x) (notIdle : x ≠ .idle) : (r, x) ∈ s.slots := by
  unfold State.slot at h
  cases listed : Sparse.read s.slots r with
  | none => rw [listed] at h; exact absurd h.symm notIdle
  | some y =>
    rw [listed] at h
    exact Sparse.mem_of_read (listed.trans (congrArg some h))

/-- In canonical form a listed slot is the requester's slot. -/
theorem slot_of_mem {s : State} (h : Slots.wf s.slots) {r : Nat} {x : Slot} (listed : (r, x) ∈ s.slots) : s.slot r = x := by
  unfold State.slot
  rw [Sparse.read_of_mem h.1 listed]
  rfl

theorem written_of_busy {s : State} {f : InFlight} (h : s.slot s.turn.client = .busy f) : s.written = f.written := by
  unfold State.written
  rw [h]

/-- The Busy requesters are those listed as Busy. -/
theorem mem_busyRequesters (m : Slots) (r : Nat) : r ∈ busyRequesters m ↔ ∃ f, (r, Slot.busy f) ∈ m := by
  induction m with
  | nil => simp [busyRequesters]
  | cons entry rest ih =>
    obtain ⟨k, x⟩ := entry
    cases x with
    | idle => simp [busyRequesters, ih]
    | done a => simp [busyRequesters, ih]
    | busy f => simp [busyRequesters, ih, exists_or]

/-- The choice is one of the list, and there is one unless the list is empty. -/
theorem chosenRequester_cases (rs : List Nat) (choice : Nat) :
    (rs = [] ∧ chosenRequester rs choice = none) ∨ ∃ r, r ∈ rs ∧ chosenRequester rs choice = some r := by
  cases rs with
  | nil => exact .inl ⟨rfl, rfl⟩
  | cons r rest =>
    have inside : choice % (r :: rest).length < (r :: rest).length := Nat.mod_lt _ (by simp)
    exact .inr ⟨_, List.getElem_mem inside, List.getElem?_eq_getElem inside⟩

/-! ### Host memory -/

@[simp] theorem hostWord_storeWord (s : State) (e other : Nat) (v : Word) :
    (s.storeWord e v).hostWord other = if e = other then some v else s.hostWord other :=
  Sparse.read_write s.mem e other v

@[simp] theorem hostWord_setSlot (s : State) (r : Nat) (x : Slot) (e : Nat) : (s.setSlot r x).hostWord e = s.hostWord e := rfl

@[simp] theorem hostWord_respond (s : State) (st : Status) (v : Word) (e : Nat) : (s.respond st v).hostWord e = s.hostWord e := rfl

@[simp] theorem hostWord_writeElement (s : State) (n base cap : Word) (e : Nat) :
    (s.writeElement n base cap).hostWord e =
      if elementAddress base (s.nextIndex n) = e then some (sqrt100 s.rom (BitVec.ofNat 32 (s.nextIndex n)))
      else s.hostWord e :=
  hostWord_storeWord _ _ _ _

/-- Storing to an element address keeps HOST_MEM in canonical form. -/
theorem storeWord_keeps_wf {s : State} (h : Memory.wf s.mem) {e : Nat} (inside : e < Config.elements) (v : Word) :
    Memory.wf (s.storeWord e v).mem := by
  refine ⟨Sparse.write_keeps_rising h.1 e v, fun c hc => ?_⟩
  rcases Sparse.mem_write hc with rfl | before
  · exact inside
  · exact h.2 c before

theorem reset_mem_wf : Memory.wf State.reset.mem := by decide

/-- Two canonical memories that read alike at every element are equal data. -/
theorem memory_ext {s s' : State} (h : Memory.wf s.mem) (h' : Memory.wf s'.mem)
    (alike : ∀ e, s.hostWord e = s'.hostWord e) : s.mem = s'.mem :=
  Sparse.ext_of_read h.1 h'.1 alike

/-! ### INITTABLE's choice of an element -/

theorem operand_eq (w : Word) : operand w = w.toNat := rfl

theorem elementAddress_eq (base : Word) (i : Nat) : elementAddress base i = base.toNat + i := rfl

theorem nextIndex_eq (n : Word) (s : State) : s.nextIndex n = chosenIndex n.toNat s.written s.turn.pick := rfl

theorem boundsViolated_false_iff (n base cap : Word) :
    boundsViolated n base cap = false ↔ n.toNat ≤ cap.toNat ∧ base.toNat + n.toNat ≤ 2 ^ 32 := by
  rw [boundsViolated, Bool.or_eq_false_iff, capacityExceeded, addressWraps, decide_eq_false_iff_not,
    decide_eq_false_iff_not, Nat.not_lt, Nat.not_lt, operand, operand, operand]

theorem boundsViolated_iff (n base cap : Word) :
    boundsViolated n base cap = true ↔ cap.toNat < n.toNat ∨ 2 ^ 32 < base.toNat + n.toNat := by
  rw [boundsViolated, Bool.or_eq_true, capacityExceeded, addressWraps, decide_eq_true_iff, decide_eq_true_iff,
    operand, operand, operand]

/-- A chosen index is below N and not in W, as long as W is not full. -/
theorem chosenIndex_spec {n : Nat} {ws : List Nat} (rises : ws.Pairwise (· < ·)) (room : ws.length < n) (pick : Nat) :
    chosenIndex n ws pick < n ∧ chosenIndex n ws pick ∉ ws := by
  have rank : pick % (n - ws.length) < n - ws.length := Nat.mod_lt _ (by omega)
  have bounds := nthUnwritten_bounds ws (pick % (n - ws.length))
  exact ⟨by unfold chosenIndex; omega, nthUnwritten_fresh rises _⟩

/-! ### The cases of each meaning -/

theorem raise_eq (e : Status) (s : State) : raise e s = .next (s.respond e 0) := rfl

theorem execSqrt_eq (n b c : Word) (s : State) : execSqrt n b c s = .next (s.respond .ok (sqrt100 s.rom n)) := rfl

theorem execTlookup_cases (i b c : Word) (s : State) :
    (100 < i.toNat ∧ execTlookup i b c s = .next (s.respond .eIndex 0)) ∨
      (i.toNat ≤ 100 ∧ execTlookup i b c s = .next (s.respond .ok (s.rom.word i.toNat))) := by
  unfold execTlookup
  by_cases out : 100 < i.toNat
  · exact .inl ⟨out, by simp [indexOutOfTable, operand, out, raise]⟩
  · exact .inr ⟨by omega, by simp [indexOutOfTable, operand, out]⟩

theorem execInittable_cases (n base cap : Word) (s : State) :
    (boundsViolated n base cap = true ∧ execInittable n base cap s = .next (s.respond .eBounds 0)) ∨
      (boundsViolated n base cap = false ∧ s.written.length < n.toNat ∧
        execInittable n base cap s = .next (s.writeElement n base cap)) ∨
      (boundsViolated n base cap = false ∧ n.toNat ≤ s.written.length ∧
        execInittable n base cap s = .next (s.respond .ok 0)) := by
  unfold execInittable
  by_cases bad : boundsViolated n base cap = true
  · exact .inl ⟨bad, by simp [bad, raise]⟩
  · rw [Bool.not_eq_true] at bad
    by_cases room : s.written.length < n.toNat
    · exact .inr (.inl ⟨bad, room, by simp [bad, operand, room]⟩)
    · exact .inr (.inr ⟨bad, by omega, by simp [bad, operand, room]⟩)

/-- What one step of the block for a command can do: a response in the client's slot, or one write step of an INITTABLE that
passed its checks. -/
theorem exec_cases (i : Instr) (s : State) :
    (∃ st v, (st ≠ .ok → v = 0) ∧ exec i s = .next (s.respond st v)) ∨
      (∃ n base cap, i = .inittable n base cap ∧ boundsViolated n base cap = false ∧ s.written.length < n.toNat ∧
        exec i s = .next (s.writeElement n base cap)) := by
  cases i with
  | sqrt n b c => exact .inl ⟨.ok, _, by simp, execSqrt_eq n b c s⟩
  | tlookup i b c =>
    rcases execTlookup_cases i b c s with ⟨-, h⟩ | ⟨-, h⟩
    · exact .inl ⟨.eIndex, 0, by simp, h⟩
    · exact .inl ⟨.ok, _, by simp, h⟩
  | inittable n base cap =>
    rcases execInittable_cases n base cap s with ⟨-, h⟩ | ⟨ok, room, h⟩ | ⟨-, -, h⟩
    · exact .inl ⟨.eBounds, 0, by simp, h⟩
    · exact .inr ⟨n, base, cap, rfl, ok, room, h⟩
    · exact .inl ⟨.ok, 0, by simp, h⟩

/-- What the turn of a requester can do: nothing where its slot is not Busy, a response, or a write step. -/
theorem runTurn_cases (s : State) :
    ((∀ f, s.slot s.turn.client ≠ .busy f) ∧ runTurn s = .next s) ∨
      (∃ f, s.slot s.turn.client = .busy f ∧
        ((∃ st v, (st ≠ .ok → v = 0) ∧ runTurn s = .next (s.respond st v)) ∨
          (∃ n base cap, decode f.cmd = .ok (.inittable n base cap) ∧ boundsViolated n base cap = false ∧
            s.written.length < n.toNat ∧ runTurn s = .next (s.writeElement n base cap)))) := by
  unfold runTurn
  cases h : s.slot s.turn.client with
  | idle => exact .inl ⟨by simp, rfl⟩
  | done a => exact .inl ⟨by simp, rfl⟩
  | busy f =>
    refine .inr ⟨f, rfl, ?_⟩
    cases d : decode f.cmd with
    | error e => exact .inl ⟨.eIllegal, 0, by simp, by simp only [d, raise]⟩
    | ok i =>
      rcases exec_cases i s with h | ⟨n, base, cap, rfl, ok, room, h⟩
      · exact .inl (by simpa only [d] using h)
      · exact .inr ⟨n, base, cap, rfl, ok, room, by simpa only [d] using h⟩

/-- What a step with no move that can be made can do: wait where none is Busy, or run the command of one that is. -/
theorem silentTurn_cases (s : State) :
    (busyRequesters s.slots = [] ∧ silentTurn s = .next s) ∨
      ∃ r f, (r, Slot.busy f) ∈ s.slots ∧ silentTurn s = runTurn (s.countDraw.giveTurn r (Config.freePick s.draws)) := by
  unfold silentTurn
  rcases chosenRequester_cases (busyRequesters s.slots) (Config.freeClient s.draws) with ⟨none, h⟩ | ⟨r, listed, h⟩
  · exact .inl ⟨none, by rw [h]⟩
  · obtain ⟨f, busy⟩ := (mem_busyRequesters _ _).mp listed
    exact .inr ⟨r, f, busy, by rw [h]⟩

/-! ### Which move is made -/

@[simp] theorem isIdle_iff (x : Slot) : x.isIdle = true ↔ x = .idle := by cases x <;> simp [Slot.isIdle]

@[simp] theorem isBusy_iff (x : Slot) : x.isBusy = true ↔ ∃ f, x = .busy f := by cases x <;> simp [Slot.isBusy]

@[simp] theorem isDone_iff (x : Slot) : x.isDone = true ↔ ∃ a, x = .done a := by cases x <;> simp [Slot.isDone]

@[simp] theorem possible_issue (r : Nat) (cmd : Command) (s : State) :
    (Move.issue r cmd).possible s = true ↔ s.slot r = .idle :=
  isIdle_iff _

@[simp] theorem possible_run (r pick : Nat) (s : State) :
    (Move.run r pick).possible s = true ↔ ∃ f, s.slot r = .busy f :=
  isBusy_iff _

@[simp] theorem possible_take (r : Nat) (s : State) : (Move.take r).possible s = true ↔ ∃ a, s.slot r = .done a :=
  isDone_iff _

@[simp] theorem possible_hostWrite (e v : Word) (s : State) : (Move.hostWrite e v).possible s = true := rfl

@[simp] theorem possible_reset (s : State) : Move.reset.possible s = true := rfl

/-- Whether a move can be made is a matter of the slots alone. -/
@[simp] theorem possible_withMoves (m : Move) (s : State) (ms : List Move) :
    m.possible { s with moves := ms } = m.possible s := rfl

theorem firstPossible_withMoves (s : State) (ms list : List Move) :
    firstPossible { s with moves := ms } list = firstPossible s list := by
  induction list with
  | nil => rfl
  | cons m rest ih => simp only [firstPossible, ih, possible_withMoves]

theorem firstPossible_none {s : State} {list : List Move} :
    firstPossible s list = none ↔ ∀ m ∈ list, m.possible s = false := by
  induction list with
  | nil => simp [firstPossible]
  | cons m rest ih => cases h : m.possible s <;> simp [firstPossible, h, ih]

/-- The move made is the first that can be, and the others stay in their order. -/
theorem firstPossible_some {s : State} {list rest : List Move} {m : Move} (h : firstPossible s list = some (m, rest)) :
    m.possible s = true ∧
      ∃ before after, list = before ++ m :: after ∧ rest = before ++ after ∧ ∀ x ∈ before, x.possible s = false := by
  induction list generalizing rest with
  | nil => simp [firstPossible] at h
  | cons x tail ih =>
    cases can : x.possible s with
    | true =>
      simp only [firstPossible, can, if_true, Option.some.injEq, Prod.mk.injEq] at h
      obtain ⟨rfl, rfl⟩ := h
      exact ⟨can, [], _, rfl, rfl, by simp⟩
    | false =>
      simp only [firstPossible, can, Bool.false_eq_true, if_false, Option.map_eq_some_iff, Prod.mk.injEq] at h
      obtain ⟨⟨y, ys⟩, deeper, rfl, rfl⟩ := h
      obtain ⟨possible, before, after, rfl, rfl, wait⟩ := ih deeper
      exact ⟨possible, x :: before, after, rfl, rfl, by simpa [can] using wait⟩

/-- A move that waits does not change which move is made. -/
theorem firstPossible_waiting {s : State} {m : Move} (wait : m.possible s = false) (before after : List Move) :
    (firstPossible s (before ++ after) = none ∧ firstPossible s (before ++ m :: after) = none) ∨
      ∃ x left right, left.Sublist before ∧ right.Sublist after ∧
        firstPossible s (before ++ after) = some (x, left ++ right) ∧
        firstPossible s (before ++ m :: after) = some (x, left ++ m :: right) := by
  induction before with
  | nil =>
    cases h : firstPossible s after with
    | none => exact .inl ⟨h, by simp [firstPossible, wait, h]⟩
    | some y =>
      obtain ⟨-, bs, as, list, rest, -⟩ := firstPossible_some (m := y.1) (rest := y.2) h
      refine .inr ⟨y.1, [], y.2, .refl _, ?_, h, by simp [firstPossible, wait, h]⟩
      rw [list, rest]
      exact (List.Sublist.refl bs).append (List.sublist_cons_self _ _)
  | cons x tail ih =>
    cases can : x.possible s with
    | true =>
      exact .inr ⟨x, tail, after, List.sublist_cons_self _ _, .refl _, by simp [firstPossible, can], by simp [firstPossible, can]⟩
    | false =>
      rcases ih with ⟨a, b⟩ | ⟨y, left, right, l, r, a, b⟩
      · exact .inl ⟨by simp [firstPossible, can, a], by simp [firstPossible, can, b]⟩
      · exact .inr ⟨y, x :: left, right, l.cons_cons x, r, by simp [firstPossible, can, a], by simp [firstPossible, can, b]⟩

/-! ### The moves to come are neither read nor written by what is carried out -/

/-- An instruction answers a next state and neither reads nor writes the moves to come. -/
theorem exec_moves (i : Instr) (s : State) :
    ∃ t, exec i s = .next t ∧ t.moves = s.moves ∧ ∀ ms, exec i { s with moves := ms } = .next { t with moves := ms } := by
  cases i with
  | sqrt n b c => exact ⟨_, rfl, rfl, fun _ => rfl⟩
  | tlookup i b c =>
    by_cases out : indexOutOfTable i = true
    · exact ⟨_, if_pos out, rfl, fun _ => if_pos out⟩
    · exact ⟨_, if_neg out, rfl, fun _ => if_neg out⟩
  | inittable n base cap =>
    by_cases bad : boundsViolated n base cap = true
    · exact ⟨_, if_pos bad, rfl, fun _ => if_pos bad⟩
    · by_cases room : s.written.length < operand n
      · exact ⟨_, (if_neg bad).trans (if_pos room), rfl, fun _ => (if_neg bad).trans (if_pos room)⟩
      · exact ⟨_, (if_neg bad).trans (if_neg room), rfl, fun _ => (if_neg bad).trans (if_neg room)⟩

/-- A turn likewise. -/
theorem runTurn_moves (s : State) :
    ∃ t, runTurn s = .next t ∧ t.moves = s.moves ∧ ∀ ms, runTurn { s with moves := ms } = .next { t with moves := ms } := by
  cases h : s.slot s.turn.client with
  | idle =>
    exact ⟨s, by simp only [runTurn, h], rfl, fun ms => by
      unfold runTurn; rw [show ({ s with moves := ms } : State).slot _ = .idle from h]⟩
  | done a =>
    exact ⟨s, by simp only [runTurn, h], rfl, fun ms => by
      unfold runTurn; rw [show ({ s with moves := ms } : State).slot _ = .done a from h]⟩
  | busy f =>
    cases d : decode f.cmd with
    | error e =>
      exact ⟨s.respond .eIllegal 0, by simp only [runTurn, h, d, raise], rfl, fun ms => by
        unfold runTurn; rw [show ({ s with moves := ms } : State).slot _ = .busy f from h]; simp only [d, raise]; rfl⟩
    | ok i =>
      obtain ⟨t, e, same, all⟩ := exec_moves i s
      exact ⟨t, by simpa only [runTurn, h, d] using e, same, fun ms => by
        unfold runTurn; rw [show ({ s with moves := ms } : State).slot _ = .busy f from h]; simpa only [d] using all ms⟩

/-- Carrying out a move likewise. -/
theorem takeMove_moves (m : Move) (s : State) :
    ∃ t, takeMove m s = .next t ∧ t.moves = s.moves ∧ ∀ ms, takeMove m { s with moves := ms } = .next { t with moves := ms } := by
  cases m with
  | run r pick => exact runTurn_moves (s.giveTurn r pick)
  | hostWrite e v => exact ⟨_, rfl, rfl, fun _ => rfl⟩
  | reset => exact ⟨_, rfl, rfl, fun _ => rfl⟩
  | issue r cmd =>
    cases h : s.slot r with
    | idle => exact ⟨s.setSlot r (.busy ⟨cmd, []⟩), by simp only [takeMove, State.accept, h], rfl, fun ms => by
        simp only [takeMove, State.accept]; rw [show ({ s with moves := ms } : State).slot r = .idle from h]; rfl⟩
    | busy f => exact ⟨s, by simp only [takeMove, State.accept, h], rfl, fun ms => by
        simp only [takeMove, State.accept]; rw [show ({ s with moves := ms } : State).slot r = .busy f from h]⟩
    | done a => exact ⟨s, by simp only [takeMove, State.accept, h], rfl, fun ms => by
        simp only [takeMove, State.accept]; rw [show ({ s with moves := ms } : State).slot r = .done a from h]⟩
  | take r =>
    cases h : s.slot r with
    | done a => exact ⟨{ s.setSlot r .idle with received := s.received ++ [⟨r, a⟩] }, by simp only [takeMove, State.takeResponse, h], rfl, fun ms => by
        simp only [takeMove, State.takeResponse]; rw [show ({ s with moves := ms } : State).slot r = .done a from h]; rfl⟩
    | busy f => exact ⟨s, by simp only [takeMove, State.takeResponse, h], rfl, fun ms => by
        simp only [takeMove, State.takeResponse]; rw [show ({ s with moves := ms } : State).slot r = .busy f from h]⟩
    | idle => exact ⟨s, by simp only [takeMove, State.takeResponse, h], rfl, fun ms => by
        simp only [takeMove, State.takeResponse]; rw [show ({ s with moves := ms } : State).slot r = .idle from h]⟩

/-- The block's own step likewise. -/
theorem silentTurn_moves (s : State) :
    ∃ t, silentTurn s = .next t ∧ t.moves = s.moves ∧ ∀ ms, silentTurn { s with moves := ms } = .next { t with moves := ms } := by
  cases h : chosenRequester (busyRequesters s.slots) (Config.freeClient s.draws) with
  | none => exact ⟨s, by simp only [silentTurn, h], rfl, fun ms => by
      unfold silentTurn; rw [show chosenRequester (busyRequesters ({ s with moves := ms } : State).slots) _ = none from h]⟩
  | some r =>
    obtain ⟨t, e, same, all⟩ := runTurn_moves (s.countDraw.giveTurn r (Config.freePick s.draws))
    exact ⟨t, by simpa only [silentTurn, h] using e, same, fun ms => by
      unfold silentTurn; rw [show chosenRequester (busyRequesters ({ s with moves := ms } : State).slots) _ = some r from h]
      exact all ms⟩

/-! ### Steps -/

/-- What a step is where a move can be made. -/
theorem step_nextMove {s : State} {m : Move} {rest : List Move} (h : s.nextMove = some (m, rest)) :
    step s = takeMove m { s with moves := rest } := by
  unfold step
  rw [h]

/-- What a step is where no move can be made. -/
theorem step_silent {s : State} (h : s.nextMove = none) : step s = silentTurn s := by
  unfold step
  rw [h]

/-- What a step is, by the first move to come, where that can be made. -/
theorem step_move {s : State} {m : Move} {rest : List Move} (h : s.moves = m :: rest) (can : m.possible s = true) :
    step s = takeMove m { s with moves := rest } :=
  step_nextMove (by simp [State.nextMove, h, firstPossible, can])

theorem nextMove_nil {s : State} (h : s.moves = []) : s.nextMove = none := by
  rw [State.nextMove, h]
  rfl

/-- Waiting moves are those that cannot be made. -/
theorem everyMoveWaits_iff (s : State) : s.everyMoveWaits ↔ s.nextMove = none := by
  rw [State.nextMove, firstPossible_none]
  refine forall₂_congr fun m _ => ?_
  rw [Bool.eq_false_iff]
  cases m <;> simp

/-- A turn leaves every slot but the client's, and a Busy client stays Busy or is answered. -/
theorem runTurn_slots {s t : State} (h : runTurn s = .next t) :
    (∀ other, other ≠ s.turn.client → t.slot other = s.slot other) ∧
      ∀ f, s.slot s.turn.client = .busy f →
        (∃ a, t.slot s.turn.client = .done a) ∨ ∃ g, t.slot s.turn.client = .busy g := by
  rcases runTurn_cases s with ⟨idle, e⟩ | ⟨f, -, ⟨st, v, -, e⟩ | ⟨n, base, cap, -, -, -, e⟩⟩ <;> rw [e] at h <;> cases h
  · exact ⟨fun _ _ => rfl, fun f busy => absurd busy (idle f)⟩
  · exact ⟨fun other ho => by rw [slot_respond, if_neg ho.symm], fun _ _ => .inl ⟨_, by rw [slot_respond, if_pos rfl]⟩⟩
  · exact ⟨fun other ho => by rw [slot_writeElement, if_neg ho.symm], fun _ _ => .inr ⟨_, by rw [slot_writeElement, if_pos rfl]⟩⟩

/-! ### Runs of several steps -/

theorem reaches_zero (s : State) : s.reaches 0 s := rfl

theorem run_succ {M : Host.Core} {s t : M.State} (h : M.step s = .next t) (k : Nat) : M.run (k + 1) s = M.run k t := by
  rw [Host.Core.run, h]

/-- One step, and then the rest of the run. -/
theorem reaches_succ {s t u : State} {k : Nat} (first : step s = .next t) (rest : t.reaches k u) : s.reaches (k + 1) u :=
  (run_succ (M := Sys2Proof.core) first k).trans rest

end Sys2Proof.Machine
end

