-- ==== Sys2Proof/Laws/Invariant.lean ====
section
/-! SUPPORT. That the shared updates keep the machine's invariant, each said once. -/

namespace Sys2Proof.Machine

/-- Under the invariant every requester's slot is sound, listed or not. -/
theorem slot_sound {s : State} (h : s.Inv) (r : Nat) : (s.slot r).sound = true := by
  by_cases free : s.slot r = .idle
  · rw [free]; rfl
  · exact h.2.2.2.1 _ (mem_slots_of_slot rfl free)

theorem setSlot_keeps_Inv {s : State} (h : s.Inv) (r : Nat) {x : Slot} (sound : x.sound = true) : (s.setSlot r x).Inv := by
  refine ⟨h.1, h.2.1, slotsSet_keeps_wf h.2.2.1 _ _, fun c hc => ?_, h.2.2.2.2⟩
  rcases mem_slotsSet hc with rfl | before
  · exact sound
  · exact h.2.2.2.1 c before

theorem respond_keeps_Inv {s : State} (h : s.Inv) {st : Status} {v : Word} (zero : st ≠ .ok → v = 0) :
    (s.respond st v).Inv := by
  refine setSlot_keeps_Inv h _ ?_
  by_cases good : st = .ok
  · simp [Slot.sound, Response.sound, good]
  · simp [Slot.sound, Response.sound, zero good]

theorem storeWord_keeps_Inv {s : State} (h : s.Inv) {e : Nat} (inside : e < Config.elements) (v : Word) :
    (s.storeWord e v).Inv :=
  ⟨h.1, storeWord_keeps_wf h.2.1 inside v, h.2.2⟩

theorem resetBlock_keeps_Inv {s : State} (h : s.Inv) : s.resetBlock.Inv :=
  ⟨h.1, h.2.1, ⟨List.Pairwise.nil, by simp⟩, by simp, h.2.2.2.2⟩

theorem giveTurn_keeps_Inv {s : State} (h : s.Inv) (r pick : Nat) : (s.giveTurn r pick).Inv := h

theorem countDraw_keeps_Inv {s : State} (h : s.Inv) : s.countDraw.Inv := h

@[simp] theorem pending_idle : Slot.idle.pending = 0 := rfl

@[simp] theorem pending_done (a : Response) : (Slot.done a).pending = 0 := rfl

/-- Replacing a listed slot changes the steps still needed by that slot's alone. -/
theorem sum_pending_slotsSet {m : Slots} (h : Slots.wf m) {r : Nat} {x y : Slot} (listed : (r, x) ∈ m) (notIdle : y ≠ .idle) :
    ((Slots.set m r y).map fun c => c.2.pending).sum + x.pending = (m.map fun c => c.2.pending).sum + y.pending := by
  have asWrite : Slots.set m r y = Sparse.write m r y := by cases y <;> first | rfl | exact absurd rfl notIdle
  rw [asWrite]
  obtain ⟨rises, -⟩ := h
  clear asWrite
  induction m with
  | nil => simp at listed
  | cons c rest ih =>
    obtain ⟨k, v⟩ := c
    obtain ⟨above, tail⟩ := (Sparse.rising_cons _ _).mp rises
    simp only [Sparse.write]
    rcases List.mem_cons.mp listed with here | deeper
    · cases here; simp; omega
    · have later : k < r := above _ deeper
      rw [if_neg (by omega), if_neg (by omega)]
      have := ih deeper tail
      simp only [List.map_cons, List.sum_cons] at this ⊢
      omega

/-- A set of indices below N is no longer than N, and full exactly at that length. -/
theorem indices_length {n : Nat} {ws : List Nat} (rises : ws.Pairwise (· < ·)) (below : ∀ i ∈ ws, i < n) :
    ws.length ≤ n ∧ (ws.length = n ↔ ∀ j, j < n → j ∈ ws) := by
  have nodup : ws.Nodup := rises.imp fun hab => Nat.ne_of_lt hab
  have sub : ws.toFinset ⊆ Finset.range n := fun i hi => by simpa using below i (by simpa using hi)
  have card := List.toFinset_card_of_nodup nodup
  have short : ws.length ≤ n := by simpa [card] using Finset.card_le_card sub
  refine ⟨short, fun full j hj => ?_, fun all => ?_⟩
  · have same := Finset.eq_of_subset_of_card_le sub (by simp; omega)
    have inside : j ∈ ws.toFinset := by rw [same]; simpa using hj
    simpa using inside
  · have sup : Finset.range n ⊆ ws.toFinset := fun i hi => by simpa using all i (by simpa using hi)
    have := Finset.card_le_card sup
    simp only [Finset.card_range, card] at this
    omega

end Sys2Proof.Machine
end

