-- ==== Sys2Proof/Laws/PerInstr.lean ====
section
/-! SUPPORT. Facts about instructions as syntax, one lemma per constructor. -/

namespace Sys2Proof.Laws

/-- The words that stand for an instruction are a legal command (30_encoding.md R49). -/
def EncodesLegal.Statement (i : Instr) : Prop := (encode i).legal = true

theorem EncodesLegal.sqrt (n b c : Word) : EncodesLegal.Statement (.sqrt n b c) := by
  simp [EncodesLegal.Statement, encode, Command.legal, Command.reservedZero, Command.opAssigned]

theorem EncodesLegal.tlookup (i b c : Word) : EncodesLegal.Statement (.tlookup i b c) := by
  simp [EncodesLegal.Statement, encode, Command.legal, Command.reservedZero, Command.opAssigned]

theorem EncodesLegal.inittable (n base cap : Word) : EncodesLegal.Statement (.inittable n base cap) := by
  simp [EncodesLegal.Statement, encode, Command.legal, Command.reservedZero, Command.opAssigned]

end Sys2Proof.Laws
end

