-- ==== Sys2Proof/Tests/Slice0.lean ====
section
/-! SUPPORT. The model's own tests, few and small. Expected values are the spec's: 95_test_vectors.md, 30_encoding.md R54 and the worked
examples of 41, 42 and 44. Then a witness for the hypotheses of each statement. -/

namespace Sys2Proof.Tests

open Sys2Proof.Machine

/-! ### Well-formedness: a legal command, and an ill-formed one for each check -/

theorem test_legal_word : Command.legal ⟨0x00000002, 0, 0, 0⟩ = true := by decide
theorem test_illformed_reserved_bits : Command.legal ⟨0x80000001, 4, 0, 0⟩ = false := by decide
theorem test_illformed_lowest_reserved_bit : Command.legal ⟨0x00000101, 4, 0, 0⟩ = false := by decide
theorem test_illformed_opcode_zero : Command.legal ⟨0, 0, 0, 0⟩ = false := by decide
theorem test_illformed_opcode_four : Command.legal ⟨0x00000004, 7, 0, 0⟩ = false := by decide

/-! ### Decoding words written out from the spec's encodings -/

/-- RSVD = 0, OP = 0x01 (R46, R47). -/
theorem test_decode_sqrt :
    decode ⟨0b00000000000000000000000000000001, 4, 0x12345678, 0xFFFFFFFF⟩ = .ok (.sqrt 4 0x12345678 0xFFFFFFFF) := by decide
/-- RSVD = 0, OP = 0x02. -/
theorem test_decode_tlookup : decode ⟨0b00000000000000000000000000000010, 0x65, 0, 0⟩ = .ok (.tlookup 101 0 0) := by decide
/-- RSVD = 0, OP = 0x03; R54's example. -/
theorem test_decode_inittable :
    decode ⟨0b00000000000000000000000000000011, 0x0000000C, 0x00001000, 0x00000010⟩ = .ok (.inittable 12 0x1000 16) := by decide
theorem test_decode_reserved_before_index : decode ⟨0x00000102, 500, 0, 0⟩ = .error .reservedBitsSet := by decide
theorem test_decode_reserved_opcode : decode ⟨0x000000FF, 0, 0, 0⟩ = .error .reservedOpcode := by decide
theorem test_assemble_zeroes_ignored : assemble (.sqrt 99 7 8) = ⟨0x00000001, 0x00000063, 0, 0⟩ := by decide
theorem test_table_word_order :
    decodeTableWord 128 0x00000010000010000000000C00000003 = some (.inittable 12 0x1000 16) := by decide

/-! ### The sub-blocks -/

/-- Rows of 41_range_reducer.md R67. -/
theorem test_range_reduce :
    rangeReduce 99 = ⟨99, 0, 1, 1⟩ ∧ rangeReduce 12345 = ⟨1, 2, 10000, 100⟩ ∧
      rangeReduce 4294967295 = ⟨42, 4, 100000000, 10000⟩ ∧ bucketPosition 2345 10000 = 15368 ∧
      bucketPosition 94967295 100000000 = 62237 ∧ bucketPosition 15 1000000 = 0 := by decide

/-- Rows of 42_table_interpolator.md R72. -/
theorem test_interpolate :
    interpolate romContents 1 0 = 0x10000000 ∧ interpolate romContents 1 655 = 0x1010F4F5 ∧
      interpolate romContents 99 64880 = 0x9FFDF1E1 := by decide

/-- 20_memory.md R27 and program P2: word 0x00010000 is bytes 00 00 01 00 in little order and 00 01 00 00 in big order. -/
theorem test_byte_orders :
    [0, 1, 2, 3].map (byteOfWord .little 0x00010000) = [0x00, 0x00, 0x01, 0x00] ∧
      [0, 1, 2, 3].map (byteOfWord .big 0x00010000) = [0x00, 0x01, 0x00, 0x00] := by decide

/-! ### One step of each operation -/

/-- A state with one command in flight for requester 3, whose step is the next move. -/
def inFlight (cmd : Command) (written : List Nat) (pick : Nat) (mem : Memory) : State :=
  { State.reset with slots := [(3, .busy ⟨cmd, written⟩)], moves := [.run 3 pick], mem := mem }

/-- What a step leaves in requester 3's slot and in an element of host memory. -/
def seen (o : Host.Outcome State Fault Refusal) (e : Nat) : Option (Slot × Option Word) :=
  match o with
  | .next t => some (t.slot 3, t.hostWord e)
  | .fault _ => none
  | .refused _ => none

/-- `SQRT 150`: the value at which the shift-first reading differs (95_test_vectors.md section 9). -/
theorem test_sqrt_reduced :
    seen (step (inFlight ⟨1, 150, 0, 0⟩ [] 0 [])) 0 = some (.done ⟨.ok, 0x000C1231⟩, none) := by decide
/-- `SQRT 99`: T[99] has bit 31 set, so a sign-replicating shift differs. -/
theorem test_sqrt_exact :
    seen (step (inFlight ⟨1, 99, 5, 6⟩ [] 0 [])) 0 = some (.done ⟨.ok, 0x0009F32A⟩, none) := by decide
/-- `TLOOKUP 100`. -/
theorem test_tlookup_last : seen (step (inFlight ⟨2, 100, 9, 9⟩ [] 0 [])) 0 = some (.done ⟨.ok, 0xA0000000⟩, none) := by decide
/-- `TLOOKUP 101`. -/
theorem test_tlookup_beyond : seen (step (inFlight ⟨2, 101, 0, 0⟩ [] 0 [])) 0 = some (.done ⟨.eIndex, 0⟩, none) := by decide
/-- The last write of `INITTABLE 3, 0x100, 4` where elements 0 and 1 are written: [0x102] <- 0x00016A09 (R83's example). -/
theorem test_inittable_write :
    seen (step (inFlight ⟨3, 3, 0x100, 4⟩ [0, 1] 7 [(0x102, 0xDEADBEEF)])) 0x102 =
      some (.busy ⟨⟨3, 3, 0x100, 4⟩, [0, 1, 2]⟩, some 0x00016A09) := by decide
/-- `INITTABLE 3, 0xFFFFFFFE, 8` would pass the top address (R89). -/
theorem test_inittable_wrap :
    seen (step (inFlight ⟨3, 3, 0xFFFFFFFE, 8⟩ [] 0 [(0, 0x11111111)])) 0 = some (.done ⟨.eBounds, 0⟩, some 0x11111111) := by
  decide
/-- `CMD 0x00000103, 9, 0x100, 8`: decode before E_BOUNDS, and no write. -/
theorem test_illegal_command :
    seen (step (inFlight ⟨0x00000103, 9, 0x100, 8⟩ [] 0 [(0x100, 0x11111111)])) 0x100 =
      some (.done ⟨.eIllegal, 0⟩, some 0x11111111) := by decide
/-- R105, I11: a command sent while the slot is not Idle is not accepted until it is. The offer waits while the response is taken. -/
theorem test_offer_waits_for_idle :
    step { State.reset with slots := [(3, .done ⟨.ok, 5⟩)], moves := [.issue 3 ⟨1, 4, 0, 0⟩, .take 3] } =
        .next { State.reset with received := [⟨3, ⟨.ok, 5⟩⟩], moves := [.issue 3 ⟨1, 4, 0, 0⟩] } ∧
      step { State.reset with moves := [.issue 3 ⟨1, 4, 0, 0⟩] } =
        .next { State.reset with slots := [(3, .busy ⟨⟨1, 4, 0, 0⟩, []⟩)] } := ⟨by rfl, by rfl⟩
/-- Storing does not disturb the canonical order. -/
theorem test_store_keeps_order :
    ((State.reset.storeWord 5 1).storeWord 2 3).mem = [(2, 3), (5, 1)] ∧
      (((State.reset.storeWord 5 1).storeWord 2 3).storeWord 5 4).mem = [(2, 3), (5, 4)] := by decide

/-! ### Witnesses: states and operands that meet the hypotheses of the statements -/

/-- INITTABLE 2, 0xFFFFFFFE, 2: the buffer ends at the top of the address space (R89). -/
def topBuffer : Command := encode (.inittable 2 0xFFFFFFFE 2)

/-- The same in flight for requester 3, with a set of indices written and moves to come. -/
def topState (written : List Nat) (moves : List Move) : State :=
  { State.reset with slots := [(3, .busy ⟨topBuffer, written⟩)], turn := ⟨3, 0⟩, moves := moves }

theorem witness_DecodeAndEncodeAgree : decode ⟨3, 0xFFFFFFFF, 0, 0xFFFFFFFF⟩ = .ok (.inittable 0xFFFFFFFF 0 0xFFFFFFFF) := by decide
theorem witness_StepRunsTheDecodedInstruction :
    (topState [] [.run 3 1]).moves = .run 3 1 :: [] ∧ (topState [] [.run 3 1]).slot 3 = .busy ⟨topBuffer, []⟩ ∧
      decode topBuffer = .ok (.inittable 2 0xFFFFFFFE 2) := by decide
theorem witness_SilentStepRunsSomeBusyCommand :
    Slots.wf (topState [0] [.issue 3 topBuffer]).slots ∧ (topState [0] [.issue 3 topBuffer]).nextMove = none ∧
      Slots.wf (topState [0] []).slots ∧ (topState [0] []).moves = [] ∧ (topState [0] []).slot 3 = .busy ⟨topBuffer, [0]⟩ ∧
      decode topBuffer = .ok (.inittable 2 0xFFFFFFFE 2) := by decide
/-- The other case: the one Busy command is illegal. -/
theorem witness_SilentStepRunsSomeBusyCommand_illegal :
    let s := { inFlight ⟨0x00000103, 9, 0x100, 8⟩ [] 0 [] with moves := [] }
    Slots.wf s.slots ∧ s.moves = [] ∧ s.slot 3 = .busy ⟨⟨0x00000103, 9, 0x100, 8⟩, []⟩ ∧
      decode ⟨0x00000103, 9, 0x100, 8⟩ = .error .reservedBitsSet := by decide
theorem witness_FetchedWordRunsNext : decodeTableWord 32 0x00000003 = some (.inittable 0 0 0) := by decide
theorem witness_IllegalCommandAnswersEIllegal :
    (inFlight ⟨0x00000103, 9, 0x100, 8⟩ [] 0 []).slot 3 = .busy ⟨⟨0x00000103, 9, 0x100, 8⟩, []⟩ ∧
      ¬((0x00000103#32).toNat / 256 = 0) ∧ (0x000000FF#32).toNat / 256 = 0 ∧
      ¬((0x000000FF#32).toNat % 256 = 1 ∨ (0x000000FF#32).toNat % 256 = 2 ∨ (0x000000FF#32).toNat % 256 = 3) := by decide
theorem witness_IllegalCommandAnswersEIllegal_step :
    step (inFlight ⟨0x00000004, 7, 0, 0⟩ [] 0 []) =
      .next { State.reset with slots := [(3, .done ⟨.eIllegal, 0⟩)], turn := ⟨3, 0⟩ } := by rfl
theorem witness_CommandsAreAcceptedOnlyInIdle :
    State.reset.slot 3 = .idle ∧ (topState [] []).slot 3 ≠ .idle ∧
      (topState [] [.issue 3 topBuffer]).moves = .issue 3 topBuffer :: [] := by decide
/-- A response ready for requester 3. -/
def responseReady : State := { State.reset with slots := [(3, .done ⟨.eIndex, 0⟩)], moves := [.take 3] }
theorem witness_TakingAResponseFreesTheSlot :
    responseReady.moves = .take 3 :: [] ∧ responseReady.slot 3 = .done ⟨.eIndex, 0⟩ ∧ responseReady.slot 4 = .idle := by decide
theorem witness_ResetIdlesEverySlotAndKeepsMemory : (topState [1] [.reset]).moves = .reset :: [] := by decide
theorem witness_HostWriteChangesOneWord :
    (topState [1] [.hostWrite 0xFFFFFFFF 7]).moves = .hostWrite 0xFFFFFFFF 7 :: [] := by decide
theorem witness_IdleBlockWaits : State.reset.Inv ∧ State.reset.everyMoveWaits ∧ State.reset.noneBusy :=
  ⟨by decide, by simp [State.everyMoveWaits, State.reset], fun r f h => by cases h⟩
/-- The same with something waiting: a response not yet taken, and the requester's next offer. -/
def offerWaits : State := { responseReady with moves := [.issue 3 topBuffer] }
theorem witness_IdleBlockWaits_offer : offerWaits.Inv ∧ offerWaits.everyMoveWaits ∧ offerWaits.noneBusy := by
  refine ⟨by decide, (everyMoveWaits_iff _).mpr (by decide), fun r f h => ?_⟩
  have listed := mem_slots_of_slot h (by simp)
  simp [offerWaits, responseReady] at listed
theorem witness_MovesWithoutAStepWait :
    (topState [1] [.take 3, .run 4 0, .issue 3 topBuffer, .run 3 0]).moves =
        [.take 3, .run 4 0] ++ .issue 3 topBuffer :: [.run 3 0] ∧
      (topState [1] []).slot 3 = .busy ⟨topBuffer, [1]⟩ ∧ (topState [1] []).slot 4 = .idle := by decide
theorem witness_StepKeepsInv : (topState [1] [.run 3 0]).Inv ∧ step (topState [1] [.run 3 0]) =
    .next { topState [0, 1] [] with mem := [(0xFFFFFFFE, 0)] } := by
  refine ⟨by decide, by rfl⟩
theorem witness_NoStepChangesTheRom : step { State.reset with moves := [.reset] } = .next State.reset := by rfl
/-- An element the INITTABLE in flight may write, changed by a step, and one that another agent changes. -/
theorem witness_OnlyInittableWritesMemory :
    (topState [1] []).hostWord 0xFFFFFFFE = none ∧
      seen (step (topState [1] [.run 3 0])) 0xFFFFFFFE = some (.busy ⟨topBuffer, [0, 1]⟩, some 0) ∧
      seen (step (topState [1] [.hostWrite 5 6])) 5 = some (.busy ⟨topBuffer, [1]⟩, some 6) := by decide
theorem witness_SlotsChangeOnlyByTheirOwnRequester :
    seen (step { State.reset with moves := [.issue 3 topBuffer] }) 0 = some (.busy ⟨topBuffer, []⟩, none) ∧
      seen (step (topState [1] [.run 3 0])) 0 = some (.busy ⟨topBuffer, [0, 1]⟩, none) ∧
      seen (step responseReady) 0 = some (.idle, none) ∧ seen (step (topState [1] [.reset])) 0 = some (.idle, none) ∧
      (topState [0, 1] []).nextMove = none ∧ (topState [0, 1] []).slot 3 = .busy ⟨topBuffer, [0, 1]⟩ := by decide
theorem witness_EqualCommandsAnswerAlike :
    (topState [0, 1] []).romIntact ∧
      seen (exec (.inittable 2 0xFFFFFFFE 2) (topState [0, 1] [])) 0 = some (.done ⟨.ok, 0⟩, none) ∧
      seen (exec (.inittable 2 0xFFFFFFFE 2) (topState [0, 1] [.reset])) 0 = some (.done ⟨.ok, 0⟩, none) ∧
      (topState [0] []).hostWord 0xFFFFFFFF = none ∧
      seen (exec (.inittable 2 0xFFFFFFFE 2) (topState [0] [])) 0xFFFFFFFF = some (.busy ⟨topBuffer, [0, 1]⟩, some 0x00010000) := by
  decide
theorem witness_ErrorResultsAreZero :
    seen (exec (.tlookup 101 0 0) (topState [] [])) 0 = some (.done ⟨.eIndex, 0⟩, none) ∧ Status.eIndex ≠ .ok := by decide
theorem witness_TableEntriesAreRoundedRoots : 100 ≤ 100 ∧ romContents.word 100 = 0xA0000000 := by decide
theorem witness_TableIsIncreasingWithDecreasingSteps :
    romContents.entry (10 * 10) = 10 * 2 ^ 28 ∧ romContents.entry 99 < romContents.entry 100 ∧
      romContents.entry 100 - romContents.entry 99 < romContents.entry 99 - romContents.entry 98 := by decide
theorem witness_TlookupAnswersTheEntry : State.reset.romIntact ∧ (100#32).toNat ≤ 100 := by decide
theorem witness_TlookupBeyondTheTableAnswersEIndex : 100 < (101#32).toNat ∧ 100 < (0xFFFFFFFF#32).toNat := by decide
/-- The first and last n of each row of R62's table. -/
theorem witness_RangeReductionOutputs :
    [0, 99, 100, 9999, 10000, 999999, 1000000, 99999999, 100000000, 4294967295].map (fun n => (rangeReduce n).k) =
      [0, 0, 1, 1, 2, 2, 3, 3, 4, 4] := by decide
theorem witness_BucketOffsetIsTheRemainder :
    99 < 100 ∧ 100 < 2 ^ 32 ∧ bucketOffset 100 (rangeReduce 100) = 0 ∧
      99 < 4294967295 ∧ 4294967295 < 2 ^ 32 ∧ bucketOffset 4294967295 (rangeReduce 4294967295) = 94967295 := by decide
theorem witness_BucketPositionIsAFraction :
    1525 < 100000000 ∧ bucketPosition 1525 100000000 = 0 ∧ bucketPosition 1526 100000000 = 1 := by decide
theorem witness_InterpolationStaysInItsBucket :
    1 ≤ 99 ∧ 99 ≤ 99 ∧ 65535 ≤ 0xFFFF ∧ interpolate romContents 99 64880 = 0x9FFDF1E1 ∧ interpolate romContents 41 65535 = 0x67B11BEB := by decide
theorem witness_FallbackAgreesWithTheFormula : 99 < 1000015 ∧ 1000015 < 2 ^ 32 ∧ interpolate romContents 1 0 = 0x10000000 := by decide
theorem witness_SqrtAnswersTheFormula : State.reset.romIntact := rfl
theorem witness_SqrtExactCaseShiftsTheEntry : State.reset.romIntact ∧ (99#32).toNat ≤ 99 := by decide
theorem witness_SqrtExactCaseIsWithinOneUlp : (99#32).toNat ≤ 99 ∧ sqrt100 romContents 99 = 0x0009F32A := by decide
theorem witness_SqrtIsMonotone : (99#32).toNat < (100#32).toNat ∧ (4294967294#32).toNat < (4294967295#32).toNat := by decide
theorem witness_SqrtIsExactAtTheseSquares : sqrt100Exact romContents (100 * 100) = 100 * 65536 ∧ 99 % 10 ≠ 0 := by decide
/-- One bound is passed by one, in each of the two ways; N = cap and base + N = 2^32 are within bounds. -/
theorem witness_InittableOutOfBoundsWritesNothing :
    (8#32).toNat < (9#32).toNat ∧ 2 ^ 32 < (0xFFFFFFFF#32).toNat + (2#32).toNat ∧
      boundsViolated 9 0x2000 8 = true ∧ boundsViolated 2 0xFFFFFFFF 2 = true ∧ boundsViolated 2 0xFFFFFFFE 2 = false := by decide
theorem witness_InittableWritesOneElementAStep :
    (topState [0] []).Inv ∧ (topState [0] []).slot (topState [0] []).turn.client = .busy ⟨encode (.inittable 2 0xFFFFFFFE 2), [0]⟩ ∧
      (2#32).toNat ≤ (2#32).toNat ∧ (0xFFFFFFFE#32).toNat + (2#32).toNat ≤ 2 ^ 32 ∧ 1 < (2#32).toNat ∧ 1 ∉ [0] := by decide
theorem witness_InittableMayWriteAnyElementNext :
    (topState [] []).Inv ∧ (topState [] []).slot 3 = .busy ⟨encode (.inittable 2 0xFFFFFFFE 2), []⟩ ∧
      (2#32).toNat ≤ (2#32).toNat ∧ (0xFFFFFFFE#32).toNat + (2#32).toNat ≤ 2 ^ 32 ∧ 0 < (2#32).toNat ∧ 1 < (2#32).toNat ∧
      0 ∉ ([] : List Nat) ∧ 1 ∉ ([] : List Nat) := by decide
theorem witness_InittableCompletesWhenAllIsWritten :
    (topState [0, 1] []).Inv ∧
      (topState [0, 1] []).slot (topState [0, 1] []).turn.client = .busy ⟨encode (.inittable 2 0xFFFFFFFE 2), [0, 1]⟩ ∧
      (2#32).toNat ≤ (2#32).toNat ∧ (0xFFFFFFFE#32).toNat + (2#32).toNat ≤ 2 ^ 32 ∧ ∀ j, j < (2#32).toNat → j ∈ [0, 1] := by decide
theorem witness_InittableFrame : seen (exec (.inittable 2 0xFFFFFFFE 2) (topState [0] [])) 0xFFFFFFFF =
    some (.busy ⟨topBuffer, [0, 1]⟩, some 0x00010000) := by decide
theorem witness_InittableFillsTheBufferInAnyOrder :
    (topState [] [.run 3 1, .run 3 0, .run 3 0]).Inv ∧ [1, 0].length = (2#32).toNat ∧
      (2#32).toNat ≤ (2#32).toNat ∧ (0xFFFFFFFE#32).toNat + (2#32).toNat ≤ 2 ^ 32 ∧
      (topState [] [.run 3 1, .run 3 0, .run 3 0]).moves = [1, 0].map (Move.run 3) ++ .run 3 0 :: [] ∧
      (topState [] [.run 3 1, .run 3 0, .run 3 0]).slot 3 = .busy ⟨encode (.inittable 2 0xFFFFFFFE 2), []⟩ := by decide
theorem witness_ResetMayLeaveAnySubsetWritten :
    (topState [] []).Inv ∧ (topState [] []).slot 3 = .busy ⟨encode (.inittable 2 0xFFFFFFFE 2), []⟩ ∧
      (2#32).toNat ≤ (2#32).toNat ∧ (0xFFFFFFFE#32).toNat + (2#32).toNat ≤ 2 ^ 32 ∧ [1].Nodup ∧
      ∀ i ∈ [1], i < (2#32).toNat := by decide
/-- An interleaving of program P5 in which both commands end. -/
theorem witness_OverlappingBuffersRace :
    (∀ m ∈ List.replicate 5 (Move.run 2 0) ++ List.replicate 5 (Move.run 1 3), ∃ r pick, m = .run r pick) ∧
      ∃ t, (overlapStart (List.replicate 5 (Move.run 2 0) ++ List.replicate 5 (Move.run 1 3))).reaches 10 t ∧
        t.slot 1 = .done ⟨.ok, 0⟩ ∧ t.slot 2 = .done ⟨.ok, 0⟩ := by
  refine ⟨fun m hm => ?_, _, rfl, ?_, ?_⟩
  · rcases List.mem_append.mp hm with h | h
    · exact ⟨2, 0, List.eq_of_mem_replicate h⟩
    · exact ⟨1, 3, List.eq_of_mem_replicate h⟩
  · decide
  · decide
theorem witness_EveryAcceptedCommandCompletes :
    (topState [0] []).Inv ∧ (topState [0] []).moves = [] ∧ (topState [0] []).pendingSteps = 2 ∧
      (topState [0] []).slot 3 = .busy ⟨topBuffer, [0]⟩ ∧ (topState [0] []).slot 4 = .idle := by decide
theorem witness_ElementsAreFourBytes : (State.reset.storeWord 0x1001 0x00010000).hostWord 0x1001 = some 0x00010000 ∧ 3 < 4 := by decide
/-- The first element past the buffer's N of a larger capacity, the one below its base, and an answered command. -/
theorem witness_InittableWritesNothingOutsideItsBuffer :
    (0xFF < (0x100#32).toNat) ∧ (0x100#32).toNat + (3#32).toNat ≤ 0x103 ∧ (3#32).toNat ≤ 3 ∧ 3 < (4#32).toNat ∧
      seen (exec (.inittable 2 0xFFFFFFFE 2) (topState [0, 1] [])) 0 = some (.done ⟨.ok, 0⟩, none) := by decide

end Sys2Proof.Tests
end

section
/-! PROOFS. 10_state.md R21: what a command answers, and what a write step of INITTABLE stores, is fixed by the command alone. -/

namespace Sys2Proof.Machine

/-- The response an instruction ends with, when it ends: a function of the table and of the instruction's own operands. -/
def answer (rom : Rom) : Instr → Response
  | .sqrt n _ _ => ⟨.ok, sqrt100 rom n⟩
  | .tlookup i _ _ => if 100 < i.toNat then ⟨.eIndex, 0⟩ else ⟨.ok, rom.word i.toNat⟩
  | .inittable n base cap => if boundsViolated n base cap then ⟨.eBounds, 0⟩ else ⟨.ok, 0⟩

/-- A step of the block for an instruction gives the instruction's answer, or it is a write step of INITTABLE. -/
theorem exec_answers_or_writes (i : Instr) (s : State) :
    exec i s = .next (s.respond (answer s.rom i).status (answer s.rom i).result) ∨
      ∃ n base cap, i = .inittable n base cap ∧ s.written.length < n.toNat ∧ exec i s = .next (s.writeElement n base cap) := by
  cases i with
  | sqrt n b c => exact .inl (execSqrt_eq n b c s)
  | tlookup i b c =>
    refine .inl ?_
    rcases execTlookup_cases i b c s with ⟨beyond, h⟩ | ⟨inside, h⟩
    · simpa [exec, answer, beyond] using h
    · simpa [exec, answer, Nat.not_lt.mpr inside] using h
  | inittable n base cap =>
    rcases execInittable_cases n base cap s with ⟨bad, h⟩ | ⟨-, room, h⟩ | ⟨fits, -, h⟩
    · exact .inl (by simpa [exec, answer, bad] using h)
    · exact .inr ⟨n, base, cap, rfl, room, h⟩
    · exact .inl (by simpa [exec, answer, fits] using h)

theorem exec_done_eq_answer {i : Instr} {s t : State} {a : Response} (ran : exec i s = .next t)
    (done : t.slot s.turn.client = .done a) : a = answer s.rom i := by
  rcases exec_answers_or_writes i s with h | ⟨n, base, cap, -, -, h⟩
  · obtain rfl := Host.Outcome.next.inj (h.symm.trans ran)
    simpa using done.symm
  · obtain rfl := Host.Outcome.next.inj (h.symm.trans ran)
    simp at done

/-- Where host memory changed, the step was a write step, at the element of its next index. -/
theorem exec_inittable_hostWord_changed {n base cap : Word} {s t : State} {e : Nat}
    (ran : exec (.inittable n base cap) s = .next t) (changed : t.hostWord e ≠ s.hostWord e) :
    s.written.length < n.toNat ∧ e = base.toNat + s.nextIndex n ∧
      t.hostWord e = some (sqrt100 s.rom (BitVec.ofNat 32 (s.nextIndex n))) := by
  rcases exec_answers_or_writes (.inittable n base cap) s with h | ⟨_, _, _, same, room, h⟩
  · obtain rfl := Host.Outcome.next.inj (h.symm.trans ran)
    exact absurd (hostWord_respond ..) changed
  · cases same
    obtain rfl := Host.Outcome.next.inj (h.symm.trans ran)
    have here : elementAddress base (s.nextIndex n) = e := by
      by_contra elsewhere
      exact changed (by rw [hostWord_writeElement, if_neg elsewhere])
    exact ⟨room, by rw [← here, elementAddress_eq], by rw [hostWord_writeElement, if_pos here]⟩

/-- The next index is below N whatever list stands for W, canonical or not, as long as it is shorter than N. -/
theorem nextIndex_lt {n : Word} {s : State} (room : s.written.length < n.toNat) : s.nextIndex n < n.toNat := by
  rw [nextIndex_eq, chosenIndex]
  have rank : s.turn.pick % (n.toNat - s.written.length) < n.toNat - s.written.length := Nat.mod_lt _ (by omega)
  obtain ⟨-, most⟩ := nthUnwritten_bounds s.written (s.turn.pick % (n.toNat - s.written.length))
  omega

end Sys2Proof.Machine

open Sys2Proof Sys2Proof.Machine

/-- Settles O21: both answers are the instruction's answer over the same table, and a changed word is the one of the next index. -/
theorem equalCommandsAnswerAlike : Obligations.EqualCommandsAnswerAlike := by
  refine ⟨fun i s s' t t' a a' intact intact' ran ran' done done' => ?_, fun s t n base cap e intact ran changed => ?_⟩
  · calc a = answer s.rom i := exec_done_eq_answer ran done
      _ = answer s'.rom i := by rw [intact, intact']
      _ = a' := (exec_done_eq_answer ran' done').symm
  · obtain ⟨room, rfl, stored⟩ := exec_inittable_hostWord_changed ran changed
    refine ⟨by omega, Nat.add_lt_add_left (nextIndex_lt room) _, ?_⟩
    rw [stored, intact, Nat.add_sub_cancel_left]

end

section
/-! PROOFS. 40_sqrt_table.md: the table holds the rounded roots (R55), and so has the properties R57 lists. -/

namespace Sys2Proof.Machine

/-- `w` is the natural number nearest to the root of `x`: `w - 1/2 ≤ √x < w + 1/2`, doubled and squared. No odd square is a multiple
of four, so the first is strict; at `w = 0`, where the subtraction is cut off at 0, it holds of itself. -/
abbrev IsNearestRoot (w x : Nat) : Prop := (2 * w - 1) ^ 2 ≤ 4 * x ∧ 4 * x < (2 * w + 1) ^ 2

theorem twice_succ_sub_one_sq (r : Nat) : (2 * (r + 1) - 1) ^ 2 = 4 * (r * r + r) + 1 := by
  rw [show 2 * (r + 1) - 1 = 2 * r + 1 by omega]
  ring

/-- A greater number has no smaller nearest root. -/
theorem IsNearestRoot.mono {w v x y : Nat} (hw : IsNearestRoot w x) (hv : IsNearestRoot v y) (le : x ≤ y) : w ≤ v := by
  have squares : (2 * w - 1) ^ 2 < (2 * v + 1) ^ 2 := (hw.1.trans (Nat.mul_le_mul_left 4 le)).trans_lt hv.2
  have roots : 2 * w - 1 < 2 * v + 1 := lt_of_pow_lt_pow_left' 2 squares
  omega

theorem IsNearestRoot.unique {w v x : Nat} (hw : IsNearestRoot w x) (hv : IsNearestRoot v x) : w = v :=
  (hw.mono hv le_rfl).antisymm (hv.mono hw le_rfl)

theorem isNearestRoot_self_sq (w : Nat) : IsNearestRoot w (w ^ 2) := by
  constructor
  · calc (2 * w - 1) ^ 2 ≤ (2 * w) ^ 2 := Nat.pow_le_pow_left (Nat.sub_le _ _) 2
      _ = 4 * w ^ 2 := by ring
  · calc 4 * w ^ 2 = (2 * w) ^ 2 := by ring
      _ < (2 * w + 1) ^ 2 := Nat.pow_lt_pow_left (Nat.lt_succ_self _) (by decide)

/-- Rounding the natural root up exactly where its remainder exceeds it gives the nearest number. -/
theorem isNearestRoot_of_sqrt (x : Nat) :
    IsNearestRoot (if x - x.sqrt * x.sqrt > x.sqrt then x.sqrt + 1 else x.sqrt) x := by
  have low : x.sqrt * x.sqrt ≤ x := Nat.sqrt_le x
  have high : x ≤ x.sqrt * x.sqrt + x.sqrt + x.sqrt := Nat.sqrt_le_add x
  generalize x.sqrt = r at low high ⊢
  split
  case isTrue up =>
    constructor
    · calc (2 * (r + 1) - 1) ^ 2 = 4 * (r * r + r) + 1 := twice_succ_sub_one_sq r
        _ ≤ 4 * x := by omega
    · calc 4 * x < 4 * (r * r) + 12 * r + 9 := by omega
        _ = (2 * (r + 1) + 1) ^ 2 := by ring
  case isFalse stay =>
    constructor
    · calc (2 * r - 1) ^ 2 ≤ (2 * r) ^ 2 := Nat.pow_le_pow_left (Nat.sub_le _ _) 2
        _ = 4 * (r * r) := by ring
        _ ≤ 4 * x := by omega
    · calc 4 * x < 4 * (r * r) + 4 * r + 1 := by omega
        _ = (2 * r + 1) ^ 2 := by ring

theorem isNearestRoot_roundedRoot (i : Nat) : IsNearestRoot (roundedRoot i) (i * 2 ^ 56) :=
  isNearestRoot_of_sqrt _

theorem IsNearestRoot.abs_sub_sqrt_lt {w x : Nat} (h : IsNearestRoot w x) : |(w : ℝ) - √x| < 1 / 2 := by
  obtain ⟨low, high⟩ := h
  have above : √x < w + 1 / 2 := by
    refine (Real.sqrt_lt' (by positivity)).mpr ?_
    have squares : (4 * x : ℝ) < (2 * w + 1) ^ 2 := mod_cast high
    linarith
  have below : (w : ℝ) - 1 / 2 < √x := by
    cases w with
    | zero =>
      have nonneg := Real.sqrt_nonneg x
      push_cast
      linarith
    | succ v =>
      have odd : (2 * (v + 1) - 1) ^ 2 = 4 * (v * v + v) + 1 := twice_succ_sub_one_sq v
      have strict : ((v * v + v + 1 : ℕ) : ℝ) ≤ x := mod_cast (by omega : v * v + v + 1 ≤ x)
      refine Real.lt_sqrt_of_sq_lt ?_
      push_cast at strict ⊢
      linarith
  exact abs_sub_lt_iff.mpr ⟨by linarith, by linarith⟩

theorem sqrt_mul_two_pow_56 (i : Nat) : √((i * 2 ^ 56 : ℕ) : ℝ) = √i * 2 ^ 28 := by
  have square : ((i * 2 ^ 56 : ℕ) : ℝ) = i * (2 ^ 28) ^ 2 := by push_cast; ring
  rw [square, Real.sqrt_mul (Nat.cast_nonneg i), Real.sqrt_sq (by positivity)]

/-- R55 of the words of R56, each checked in integers. -/
theorem isNearestRoot_entry : ∀ i ≤ 100, IsNearestRoot (romContents.entry i) (i * 2 ^ 56) := by decide

theorem entry_eq_roundedRoot {i : Nat} (h : i ≤ 100) : romContents.entry i = roundedRoot i :=
  (isNearestRoot_entry i h).unique (isNearestRoot_roundedRoot i)

theorem entry_mul_self {i : Nat} (h : i ≤ 10) : romContents.entry (i * i) = i * 2 ^ 28 := by
  have root := isNearestRoot_self_sq (i * 2 ^ 28)
  rw [show (i * 2 ^ 28) ^ 2 = i * i * 2 ^ 56 by ring] at root
  exact (isNearestRoot_entry _ (Nat.mul_le_mul h h)).unique root

/-- Each step of the table is longer than the next. -/
theorem entry_step_lt : ∀ i ≤ 98, romContents.entry (i + 2) - romContents.entry (i + 1) <
    romContents.entry (i + 1) - romContents.entry i := by decide

/-- A step longer than the next is not empty, which leaves the last step to look at. -/
theorem entry_lt_succ {i : Nat} (h : i ≤ 99) : romContents.entry i < romContents.entry (i + 1) := by
  rcases h.lt_or_eq with earlier | rfl
  · have longer := entry_step_lt i (by omega)
    omega
  · decide

theorem entry_le_last {i : Nat} (h : i ≤ 100) : romContents.entry i ≤ romContents.entry 100 :=
  (isNearestRoot_entry i h).mono (isNearestRoot_entry 100 le_rfl) (Nat.mul_le_mul_right _ h)

end Sys2Proof.Machine

open Sys2Proof Sys2Proof.Machine

/-- Settles O24: the nearest natural number to a root is unique, and both the entry and R55's integer form are nearest. -/
theorem tableEntriesAreRoundedRoots : Obligations.TableEntriesAreRoundedRoots := fun i inside => by
  refine ⟨?_, entry_eq_roundedRoot inside⟩
  rw [← sqrt_mul_two_pow_56]
  exact (isNearestRoot_entry i inside).abs_sub_sqrt_lt

/-- Settles O25: squares have exact roots, nearest roots do not decrease, and each step of the table is longer than the next. -/
theorem tableIsIncreasingWithDecreasingSteps : Obligations.TableIsIncreasingWithDecreasingSteps :=
  ⟨fun _ => entry_mul_self, fun i inside => ⟨(romContents.word i).isLt, entry_le_last inside⟩, fun _ => entry_lt_succ,
    entry_step_lt, by decide, by decide⟩

end

section
/-! PROOFS. 41_range_reducer.md: the loop stops at the least k with n div 100^k at most 99, which is the logarithm of n to base 100,
rounded down; the table of R62, R63 and the bucket offset of R64 follow. -/

namespace Sys2Proof.Machine

/-- The outputs of R61's loop after `k` turns from `n`: repeated truncating division is one division. -/
def reductionAt (n k : Nat) : Reduction := ⟨n / 100 ^ k, k, 100 ^ k, 10 ^ k⟩

theorem reductionAt_zero (n : Nat) : reductionAt n 0 = ⟨n, 0, 1, 1⟩ := by simp [reductionAt]

theorem reduceOnce_reductionAt (n k : Nat) : reduceOnce (reductionAt n k) = reductionAt n (k + 1) := by
  simp [reduceOnce, reductionAt, pow_succ, Nat.div_div_eq_div_mul]

theorem limit_lt_div_pow_iff {n k : Nat} : 99 < n / 100 ^ k ↔ k < Nat.log 100 n := by
  rcases eq_or_ne n 0 with rfl | pos
  · simp
  · calc 99 < n / 100 ^ k ↔ 100 * 100 ^ k ≤ n := Nat.le_div_iff_mul_le (by positivity)
      _ ↔ 100 ^ (k + 1) ≤ n := by rw [Nat.pow_succ']
      _ ↔ k < Nat.log 100 n := (Nat.le_log_iff_pow_le (by decide) pos).symm

/-- With turns enough, R61's loop stops where the logarithm says. -/
theorem reduceLoop_reductionAt {n k turns : Nat} (started : k ≤ Nat.log 100 n) (enough : Nat.log 100 n ≤ k + turns) :
    reduceLoop turns (reductionAt n k) = reductionAt n (Nat.log 100 n) := by
  induction turns generalizing k with
  | zero => rw [reduceLoop, started.antisymm enough]
  | succ turns ih =>
    rw [reduceLoop]
    split
    case isTrue above =>
      have more : k < Nat.log 100 n := limit_lt_div_pow_iff.mp above
      rw [reduceOnce_reductionAt, ih more (by omega)]
    case isFalse stop =>
      have done : ¬ k < Nat.log 100 n := fun more => stop (limit_lt_div_pow_iff.mpr more)
      rw [started.antisymm (Nat.le_of_not_lt done)]

theorem log_hundred_le_kMax {n : Nat} (h : n < 2 ^ 32) : Nat.log 100 n ≤ Config.kMax :=
  Nat.le_of_lt_succ (Nat.log_lt_of_lt_pow' (by decide) (h.trans (by decide)))

theorem rangeReduce_eq {n : Nat} (h : n < 2 ^ 32) : rangeReduce n = reductionAt n (Nat.log 100 n) := by
  rw [rangeReduce, ← reductionAt_zero]
  exact reduceLoop_reductionAt (Nat.zero_le _) (by simpa using log_hundred_le_kMax h)

theorem reductionAt_log_nn_le (n : Nat) : (reductionAt n (Nat.log 100 n)).nn ≤ 99 :=
  Nat.le_of_not_lt fun more => (limit_lt_div_pow_iff.mp more).false

theorem log_hundred_eq_zero_iff {n : Nat} : Nat.log 100 n = 0 ↔ n ≤ 99 := by
  rw [Nat.log_eq_zero_iff]
  omega

/-- The rows of R62's table between the first and the last. -/
theorem log_hundred_eq_iff {n k : Nat} (reduced : k ≠ 0) : Nat.log 100 n = k ↔ 100 ^ k ≤ n ∧ n ≤ 100 ^ (k + 1) - 1 := by
  rw [Nat.log_eq_iff (.inl reduced), Nat.le_sub_one_iff_lt (by positivity)]

/-- The last row of R62's table: 32 bits hold no number that takes a fifth turn. -/
theorem log_hundred_eq_four_iff {n : Nat} (h : n < 2 ^ 32) : Nat.log 100 n = 4 ↔ 100000000 ≤ n := by
  rw [log_hundred_eq_iff (by decide)]
  omega

theorem reductionAt_four_nn_le {n : Nat} (h : n < 2 ^ 32) : (reductionAt n 4).nn ≤ 42 :=
  Nat.le_of_lt_succ (Nat.div_lt_of_lt_mul (h.trans (by decide)))

theorem reductionAt_log_nn_eq_iff {n : Nat} : (reductionAt n (Nat.log 100 n)).nn = n ↔ n ≤ 99 := by
  constructor
  · intro same
    rw [← same]
    exact reductionAt_log_nn_le n
  · intro small
    rw [log_hundred_eq_zero_iff.mpr small, reductionAt_zero]

theorem reductionAt_log_nn_pos {n : Nat} (pos : n ≠ 0) : 1 ≤ (reductionAt n (Nat.log 100 n)).nn :=
  Nat.div_pos (Nat.pow_log_le_self 100 pos) (by positivity)

theorem bucketOffset_reductionAt (n k : Nat) : bucketOffset n (reductionAt n k) = n % 100 ^ k :=
  Nat.mod_eq_sub_div_mul.symm

end Sys2Proof.Machine

open Sys2Proof Sys2Proof.Machine

/-- Settles O28: the loop stops at the logarithm to base 100, which is the least k that brings n down to 99 and has R62's rows. -/
theorem rangeReductionOutputs : Obligations.RangeReductionOutputs := fun n h => by
  rw [rangeReduce_eq h]
  refine ⟨rfl, reductionAt_log_nn_le n, rfl, rfl, (Nat.mul_pow 10 10 _).symm, fun _ => limit_lt_div_pow_iff.mpr,
    log_hundred_eq_zero_iff, log_hundred_eq_iff (by decide), log_hundred_eq_iff (by decide), log_hundred_eq_iff (by decide),
    log_hundred_eq_four_iff h, fun last => ?_, reductionAt_log_nn_eq_iff, fun reduced => reductionAt_log_nn_pos (by omega)⟩
  have four : Nat.log 100 n = 4 := last
  rw [four]
  exact reductionAt_four_nn_le h

/-- Settles O29: what is left of n above `nn` buckets of `pow100` is its remainder. -/
theorem bucketOffsetIsTheRemainder : Obligations.BucketOffsetIsTheRemainder := fun n _ h => by
  rw [rangeReduce_eq h, bucketOffset_reductionAt]
  refine ⟨Nat.mod_lt _ (by positivity), ?_, Nat.div_mul_le_self n _, rfl⟩
  calc 100 ^ Nat.log 100 n ≤ 100 ^ Config.kMax := Nat.pow_le_pow_right (by decide) (log_hundred_le_kMax h)
    _ = 10 ^ 8 := by decide

end

section
/-! PROOFS. 42_table_interpolator.md R71: with a bucket position that is a 16-bit fraction, R69's fallback is taken only at the bucket's
edge, where the interpolation formula adds nothing to the base entry. -/

namespace Sys2Proof.Machine

/-- An offset inside its bucket is a proper fraction of it (R66). -/
theorem bucketPosition_lt {delta pow100 : Nat} (inside : delta < pow100) : bucketPosition delta pow100 < 0x10000 := by
  rw [bucketPosition, Nat.shiftLeft_eq]
  exact Nat.div_lt_of_lt_mul (Nat.mul_lt_mul_of_pos_right inside (by decide))

/-- R69 without its fallback, over any table. -/
theorem interpolate_eq_formula (rom : Rom) (nn : Nat) {ratio16 : Nat} (fraction : ratio16 < 0x10000) :
    interpolate rom nn ratio16 = rom.entry nn + ((rom.entry (nn + 1) - rom.entry nn) * ratio16) / 65536 := by
  rw [interpolate]
  split
  case isTrue => exact congrArg (rom.entry nn + ·) (Nat.shiftRight_eq_div_pow _ 16)
  case isFalse edge =>
    have zero : ratio16 = 0 := by omega
    simp [zero]

end Sys2Proof.Machine

open Sys2Proof Sys2Proof.Machine

/-- Settles O32: the bucket offset is below `pow100`, so the position is a fraction, and for every fraction interpolation is the
formula. -/
theorem fallbackAgreesWithTheFormula : Obligations.FallbackAgreesWithTheFormula := fun n reduced h => by
  obtain ⟨inside, -⟩ := bucketOffsetIsTheRemainder n reduced h
  have fraction := bucketPosition_lt inside
  exact ⟨fraction, interpolate_eq_formula romContents _ fraction⟩

end

section
/-! PROOFS. 43_approximator.md R75, R80: in the exact case the entry's own shift is the answer; over all inputs the interpolated
root does not decrease within a row of R62's table, and the ends of two rows are in order because T[100] is ten times T[1]. -/

namespace Sys2Proof.Machine

/-! ### Entries and interpolation in order -/

theorem entry_mono {i j : Nat} (le : i ≤ j) (inside : j ≤ 100) : romContents.entry i ≤ romContents.entry j :=
  (isNearestRoot_entry i (le.trans inside)).mono (isNearestRoot_entry j inside) (Nat.mul_le_mul_right _ le)

theorem bucketPosition_mono {delta more : Nat} (le : delta ≤ more) (pow100 : Nat) :
    bucketPosition delta pow100 ≤ bucketPosition more pow100 := by
  simp only [bucketPosition, Nat.shiftLeft_eq]
  exact Nat.div_le_div_right (Nat.mul_le_mul_right _ le)

theorem entry_le_interpolate (rom : Rom) (nn : Nat) {ratio16 : Nat} (fraction : ratio16 < 0x10000) :
    rom.entry nn ≤ interpolate rom nn ratio16 := by
  rw [interpolate_eq_formula rom nn fraction]
  exact Nat.le_add_right _ _

theorem interpolate_mono (rom : Rom) (nn : Nat) {ratio16 more : Nat} (le : ratio16 ≤ more) (fraction : more < 0x10000) :
    interpolate rom nn ratio16 ≤ interpolate rom nn more := by
  rw [interpolate_eq_formula rom nn (le.trans_lt fraction), interpolate_eq_formula rom nn fraction]
  exact Nat.add_le_add_left (Nat.div_le_div_right (Nat.mul_le_mul_left _ le)) _

/-- A proper fraction of the bucket's step does not leave the bucket (R70). -/
theorem interpolate_le_entry_succ {nn ratio16 : Nat} (inside : nn ≤ 99) (fraction : ratio16 < 0x10000) :
    interpolate romContents nn ratio16 ≤ romContents.entry (nn + 1) := by
  have part : ((romContents.entry (nn + 1) - romContents.entry nn) * ratio16) / 65536 ≤
      romContents.entry (nn + 1) - romContents.entry nn :=
    Nat.div_le_of_le_mul (by rw [Nat.mul_comm]; exact Nat.mul_le_mul_right _ fraction.le)
  have rises := entry_lt_succ inside
  rw [interpolate_eq_formula romContents nn fraction]
  omega

/-! ### The root of the reduced number -/

/-- R76's `v`: the interpolated root of what is left of `n` after `k` turns of the range reducer. -/
def reducedRoot (rom : Rom) (n k : Nat) : Nat := interpolate rom (n / 100 ^ k) (bucketPosition (n % 100 ^ k) (100 ^ k))

theorem bucketPosition_mod_lt (n k : Nat) : bucketPosition (n % 100 ^ k) (100 ^ k) < 0x10000 :=
  bucketPosition_lt (Nat.mod_lt _ (by positivity))

theorem entry_le_reducedRoot (rom : Rom) (n k : Nat) : rom.entry (n / 100 ^ k) ≤ reducedRoot rom n k :=
  entry_le_interpolate rom _ (bucketPosition_mod_lt n k)

theorem reducedRoot_le_entry_succ {n k : Nat} (inside : n / 100 ^ k ≤ 99) :
    reducedRoot romContents n k ≤ romContents.entry (n / 100 ^ k + 1) :=
  interpolate_le_entry_succ inside (bucketPosition_mod_lt n k)

/-- With nothing reduced the root is the entry itself. -/
theorem reducedRoot_zero (rom : Rom) (n : Nat) : reducedRoot rom n 0 = rom.entry n := by
  simp [reducedRoot, bucketPosition, interpolate, Nat.mod_one]

/-- With the same reduction, two numbers of one bucket are in order by their position in it, and two of different buckets by the
entry between them. -/
theorem reducedRoot_mono {a b k : Nat} (le : a ≤ b) (inside : b / 100 ^ k ≤ 99) :
    reducedRoot romContents a k ≤ reducedRoot romContents b k := by
  have buckets : a / 100 ^ k ≤ b / 100 ^ k := Nat.div_le_div_right le
  rcases buckets.eq_or_lt with same | before
  · have offsets : a % 100 ^ k ≤ b % 100 ^ k := by
      rw [Nat.mod_eq_sub_div_mul, Nat.mod_eq_sub_div_mul, same]
      exact Nat.sub_le_sub_right le _
    rw [reducedRoot, reducedRoot, same]
    exact interpolate_mono romContents _ (bucketPosition_mono offsets _) (bucketPosition_mod_lt b k)
  · calc reducedRoot romContents a k ≤ romContents.entry (a / 100 ^ k + 1) := reducedRoot_le_entry_succ (by omega)
      _ ≤ romContents.entry (b / 100 ^ k) := entry_mono before (by omega)
      _ ≤ reducedRoot romContents b k := entry_le_reducedRoot romContents b k

/-! ### The approximator -/

/-- R75's exact case, before the narrowing. -/
theorem sqrt100Exact_of_le {n : Nat} (small : n ≤ 99) (rom : Rom) : sqrt100Exact rom n = rom.entry n >>> 12 := by
  have unreduced : rangeReduce n = reductionAt n 0 := by
    rw [rangeReduce_eq (by omega), log_hundred_eq_zero_iff.mpr small]
  simp [sqrt100Exact, unreduced, reductionAt_zero, rescaleExact, Config.rescaleShift]

/-- R78's one formula covers the exact case too, where nothing is reduced. -/
theorem sqrt100Exact_eq {n : Nat} (h : n < 2 ^ 32) (rom : Rom) :
    sqrt100Exact rom n = (reducedRoot rom n (Nat.log 100 n) * 10 ^ Nat.log 100 n) >>> 12 := by
  rcases le_or_gt n 99 with small | reduced
  · rw [sqrt100Exact_of_le small, log_hundred_eq_zero_iff.mpr small, reducedRoot_zero, pow_zero, Nat.mul_one]
  · have changed : (rangeReduce n).nn ≠ n := by
      rw [rangeReduce_eq h, Ne, reductionAt_log_nn_eq_iff]
      omega
    simp only [sqrt100Exact, if_neg changed]
    rw [rangeReduce_eq h, bucketOffset_reductionAt]
    rfl

/-- Every root of a row is at most `T[100]`, and every root of a later row, scaled by at least ten times as much, is at least
`T[1]`. -/
theorem scaledRoot_mono {a b : Nat} (le : a ≤ b) :
    reducedRoot romContents a (Nat.log 100 a) * 10 ^ Nat.log 100 a ≤
      reducedRoot romContents b (Nat.log 100 b) * 10 ^ Nat.log 100 b := by
  have rows : Nat.log 100 a ≤ Nat.log 100 b := Nat.log_mono_right le
  have insideA : a / 100 ^ Nat.log 100 a ≤ 99 := reductionAt_log_nn_le a
  have insideB : b / 100 ^ Nat.log 100 b ≤ 99 := reductionAt_log_nn_le b
  rcases rows.eq_or_lt with same | before
  · rw [same]
    exact Nat.mul_le_mul_right _ (reducedRoot_mono le insideB)
  · have pos : b ≠ 0 := by
      rintro rfl
      simp at before
    have first : 1 ≤ b / 100 ^ Nat.log 100 b := reductionAt_log_nn_pos pos
    calc reducedRoot romContents a (Nat.log 100 a) * 10 ^ Nat.log 100 a
        ≤ romContents.entry 100 * 10 ^ Nat.log 100 a :=
          Nat.mul_le_mul_right _ ((reducedRoot_le_entry_succ insideA).trans (entry_le_last (by omega)))
      _ = romContents.entry 1 * 10 ^ (Nat.log 100 a + 1) := by
          rw [show romContents.entry 100 = romContents.entry 1 * 10 by decide, Nat.pow_succ', Nat.mul_assoc]
      _ ≤ romContents.entry 1 * 10 ^ Nat.log 100 b := Nat.mul_le_mul_left _ (Nat.pow_le_pow_right (by decide) before)
      _ ≤ reducedRoot romContents b (Nat.log 100 b) * 10 ^ Nat.log 100 b :=
          Nat.mul_le_mul_right _ ((entry_mono first (by omega)).trans (entry_le_reducedRoot _ _ _))

theorem sqrt100Exact_mono {a b : Nat} (le : a ≤ b) (h : b < 2 ^ 32) :
    sqrt100Exact romContents a ≤ sqrt100Exact romContents b := by
  rw [sqrt100Exact_eq (le.trans_lt h), sqrt100Exact_eq h, Nat.shiftRight_eq_div_pow, Nat.shiftRight_eq_div_pow]
  exact Nat.div_le_div_right (scaledRoot_mono le)

/-- R77: no result exceeds that of the largest number. -/
theorem sqrt100Exact_le {n : Nat} (h : n < 2 ^ 32) : sqrt100Exact romContents n ≤ 0xFFFFC6C8 := by
  have last : sqrt100Exact romContents 0xFFFFFFFF = 0xFFFFC6C8 := by decide
  rw [← last]
  exact sqrt100Exact_mono (by omega) (by decide)

/-- The narrowing of R74 loses nothing. -/
theorem toNat_sqrt100 (n : Word) : (sqrt100 romContents n).toNat = sqrt100Exact romContents n.toNat := by
  rw [sqrt100, operand_eq, BitVec.toNat_ofNat]
  exact Nat.mod_eq_of_lt ((sqrt100Exact_le n.isLt).trans_lt (by decide))

theorem sqrt100_of_le {n : Word} (small : n.toNat ≤ 99) (rom : Rom) : sqrt100 rom n = (rom.word n.toNat).ushiftRight 12 := by
  rw [sqrt100, operand_eq, sqrt100Exact_of_le small]
  exact (BitVec.ofNat_toNat 32 ((rom.word n.toNat).ushiftRight 12)).trans (BitVec.setWidth_eq _)

/-! ### The frame of a response -/

theorem respond_sameOutsideSlot (s : State) (st : Status) (v : Word) : s.sameOutsideSlot (s.respond st v) s.turn.client :=
  ⟨rfl, fun _ => rfl, rfl, fun other apart => by rw [slot_respond, if_neg apart.symm]⟩

theorem respond_sameModelFields (s : State) (st : Status) (v : Word) : s.sameModelFields (s.respond st v) :=
  ⟨rfl, rfl, rfl⟩

end Sys2Proof.Machine

open Sys2Proof Sys2Proof.Machine

/-- Settles O34: with nothing to reduce, the shift of the entry is the shift of its word, and a response changes one slot. -/
theorem sqrtExactCaseShiftsTheEntry : Obligations.SqrtExactCaseShiftsTheEntry := fun s n b c intact small => by
  refine ⟨_, execSqrt_eq n b c s, ?_, respond_sameOutsideSlot s _ _, respond_sameModelFields s _ _⟩
  rw [slot_respond, if_pos rfl, sqrt100_of_le small, intact]

/-- Settles O36: the result before the narrowing does not decrease, and the narrowing keeps it. -/
theorem sqrtIsMonotone : Obligations.SqrtIsMonotone := fun a b less => by
  rw [toNat_sqrt100, toNat_sqrt100]
  exact sqrt100Exact_mono less.le b.isLt

end

section
/-! PROOFS. 44_table_initializer.md R87, R88: a step of INITTABLE stores at most the element of its next index, which lies in the
buffer's first N elements, and a count of zero leaves only the completion step. -/

namespace Sys2Proof.Machine

/-- The completion step of INITTABLE, from every state and whatever W holds (R86). -/
theorem exec_inittable_of_full {n base cap : Word} {s : State} (fits : boundsViolated n base cap = false)
    (full : n.toNat ≤ s.written.length) : exec (.inittable n base cap) s = .next (s.respond .ok 0) := by
  rcases execInittable_cases n base cap s with ⟨bad, -⟩ | ⟨-, room, -⟩ | ⟨-, -, h⟩
  · exact absurd (fits.symm.trans bad) Bool.false_ne_true
  · exact absurd full (Nat.not_le.mpr room)
  · exact h

/-- No elements exceed no capacity and reach past no address (R88). -/
theorem boundsViolated_zero (base cap : Word) : boundsViolated 0 base cap = false :=
  (boundsViolated_false_iff 0 base cap).mpr ⟨Nat.zero_le _, base.isLt.le⟩

theorem exec_inittable_hostWord_outside {n base cap : Word} {s t : State} {e : Nat}
    (ran : exec (.inittable n base cap) s = .next t) (outside : e < base.toNat ∨ base.toNat + n.toNat ≤ e) :
    t.hostWord e = s.hostWord e := by
  by_contra changed
  obtain ⟨room, here, -⟩ := exec_inittable_hostWord_changed ran changed
  have inside : s.nextIndex n < n.toNat := nextIndex_lt room
  omega

theorem exec_turn {i : Instr} {s t : State} (ran : exec i s = .next t) : t.turn = s.turn := by
  rcases exec_answers_or_writes i s with h | ⟨n, base, cap, -, -, h⟩
  · obtain rfl := Host.Outcome.next.inj (h.symm.trans ran)
    exact State.respond_turn ..
  · obtain rfl := Host.Outcome.next.inj (h.symm.trans ran)
    exact State.writeElement_turn ..

/-- Only a Busy slot holds a record (R19). -/
theorem written_of_done {s : State} {a : Response} (h : s.slot s.turn.client = .done a) : s.written = [] := by
  unfold State.written
  rw [h]

end Sys2Proof.Machine

open Sys2Proof Sys2Proof.Machine

/-- Settles O47: N = 0 violates no bound and W is never short of it, so the step is the completion step, which changes one slot. -/
theorem inittableOfNothingSucceeds : Obligations.InittableOfNothingSucceeds := fun s base cap => by
  refine ⟨_, exec_inittable_of_full (boundsViolated_zero base cap) (Nat.zero_le _), ?_, respond_sameOutsideSlot s _ _,
    respond_sameModelFields s _ _⟩
  rw [slot_respond, if_pos rfl]

/-- Settles O53: a changed word is the one of the next index, which is below N, so it is not outside and not in the buffer's rest. -/
theorem inittableWritesNothingOutsideItsBuffer : Obligations.InittableWritesNothingOutsideItsBuffer := fun s n base cap => by
  obtain ⟨t, ran, -⟩ := exec_moves (.inittable n base cap) s
  refine ⟨t, ran, fun e => exec_inittable_hostWord_outside ran, fun j beyond _ => ?_, fun a done => ?_⟩
  · exact exec_inittable_hostWord_outside ran (.inr (Nat.add_le_add_left beyond _))
  · rw [← exec_turn ran] at done
    exact written_of_done done

end

section
/-! PROOFS. 30_encoding.md: a command decodes exactly where it is the words of an instruction, and so exactly where its command
word is one of the three of R53. -/

namespace Sys2Proof

/-- A command word with RSVD zero is its OP, zero-extended (R46). -/
theorem fields_eq_iff (cw : Word) (op : BitVec 8) :
    (rsvdField cw = 0#24 ∧ opField cw = op) ↔ cw = op.setWidth 32 := by
  simp only [rsvdField, opField, ← BitVec.toNat_inj, BitVec.extractLsb'_toNat, BitVec.toNat_setWidth, BitVec.toNat_ofNat,
    Nat.shiftRight_eq_div_pow]
  have := cw.isLt
  have := op.isLt
  omega

theorem decode_encode (i : Instr) : decode (encode i) = .ok i := by
  cases i <;> simp [decode, encode, rsvdField, opField]

/-- What decodes is the words of what it decodes to. -/
theorem encode_of_decode {c : Command} {i : Instr} (h : decode c = .ok i) : encode i = c := by
  obtain ⟨cw, a, b, w⟩ := c
  unfold decode at h
  split_ifs at h with reserved sqrt tlookup inittable
  all_goals rw [not_not] at reserved; obtain rfl := Except.ok.inj h
  · rw [(fields_eq_iff cw _).mp ⟨reserved, sqrt⟩]; rfl
  · rw [(fields_eq_iff cw _).mp ⟨reserved, tlookup⟩]; rfl
  · rw [(fields_eq_iff cw _).mp ⟨reserved, inittable⟩]; rfl

theorem exists_decode_iff (c : Command) : (∃ i, decode c = .ok i) ↔ c.cw = 1 ∨ c.cw = 2 ∨ c.cw = 3 := by
  constructor
  · rintro ⟨i, h⟩
    rw [← encode_of_decode h]
    cases i <;> simp [encode]
  · obtain ⟨cw, a, b, w⟩ := c
    rintro (rfl | rfl | rfl)
    · exact ⟨_, decode_encode (.sqrt a b w)⟩
    · exact ⟨_, decode_encode (.tlookup a b w)⟩
    · exact ⟨_, decode_encode (.inittable a b w)⟩

theorem legalCommandWord_iff (cw : Word) :
    (cw = 1 ∨ cw = 2 ∨ cw = 3) ↔ cw.toNat / 256 = 0 ∧ (cw.toNat % 256 = 1 ∨ cw.toNat % 256 = 2 ∨ cw.toNat % 256 = 3) := by
  simp only [← BitVec.toNat_inj, BitVec.ofNat_eq_ofNat, BitVec.toNat_ofNat]
  omega

theorem statusWord_lt (s : Machine.Status) : (Machine.statusWord s).toNat < 256 := by
  cases s <;> decide

end Sys2Proof

open Sys2Proof Sys2Proof.Machine

/-- Settles O1: decoding an instruction's words is evaluated once for each constructor, and the two fields of a command word that
decodes determine it. -/
theorem decodeAndEncodeAgree : Obligations.DecodeAndEncodeAgree :=
  ⟨decode_encode, fun _ _ => encode_of_decode⟩

/-- Settles O2: the three command words of R53 are the three that R49 calls legal. -/
theorem legalCommandsDecode : Obligations.LegalCommandsDecode := fun c =>
  (exists_decode_iff c).trans (legalCommandWord_iff c.cw)

/-- Settles O3: each of the spec's words is decoded by evaluation. -/
theorem specWordsDecode : Obligations.SpecWordsDecode := by
  unfold Obligations.SpecWordsDecode
  decide

/-- Settles O4: each status has a code of eight bits. -/
theorem statusWordsAreTheCodes : Obligations.StatusWordsAreTheCodes :=
  ⟨rfl, rfl, rfl, rfl, fun a => ⟨statusWord_lt a.status, rfl⟩⟩

end

section
/-! PROOFS. What one step can do, said once (10_state.md R18, 60_exceptions.md R102, R105), and what every step keeps: the invariant,
the ROM, memory outside the buffer served, and the slots of the other requesters. -/

namespace Sys2Proof.Machine

/-! ### The slot just written -/

theorem slot_setSlot_same (s : State) (r : Nat) (x : Slot) : (s.setSlot r x).slot r = x :=
  (slot_setSlot s r r x).trans (if_pos rfl)

theorem slot_respond_client (s : State) (st : Status) (v : Word) : (s.respond st v).slot s.turn.client = .done ⟨st, v⟩ :=
  slot_setSlot_same _ _ _

theorem slot_writeElement_client (s : State) (n base cap : Word) :
    (s.writeElement n base cap).slot s.turn.client =
      .busy ⟨encode (.inittable n base cap), insertIndex (s.nextIndex n) s.written⟩ :=
  slot_setSlot_same _ _ _

/-! ### The effect of a step -/

/-- `s` with the turn given to requester `r`: only the model's own fields may differ from `s`. -/
def State.turnOf (s : State) (r pick : Nat) (ms : List Move) (d : Nat) : State :=
  { s with moves := ms, turn := ⟨r, pick⟩, draws := d }

section
variable (s : State) (r pick : Nat) (ms : List Move) (d : Nat)

@[simp] theorem State.turnOf_rom : (s.turnOf r pick ms d).rom = s.rom := rfl
@[simp] theorem State.turnOf_slots : (s.turnOf r pick ms d).slots = s.slots := rfl
@[simp] theorem State.turnOf_mem : (s.turnOf r pick ms d).mem = s.mem := rfl
@[simp] theorem State.turnOf_received : (s.turnOf r pick ms d).received = s.received := rfl
@[simp] theorem State.turnOf_turn : (s.turnOf r pick ms d).turn = ⟨r, pick⟩ := rfl
@[simp] theorem slot_turnOf (other : Nat) : (s.turnOf r pick ms d).slot other = s.slot other := rfl
@[simp] theorem hostWord_turnOf (e : Nat) : (s.turnOf r pick ms d).hostWord e = s.hostWord e := rfl

end

/-- A step of the block may serve requester `r`: the move made is a run move for it, or no move can be made. -/
def State.mayServe (s : State) (r : Nat) : Prop := s.nextMove = none ∨ ∃ pick rest, s.nextMove = some (.run r pick, rest)

/-- What one step can do, each kind of move with the slot state that lets it be made. Where the block serves a requester, its turn
is `runTurn`, whose cases are `runTurn_busy`. -/
inductive StepEffect (s : State) : State → Prop
  /-- Nothing but the model's own fields may differ. -/
  | wait {r pick ms d} : StepEffect s (s.turnOf r pick ms d)
  | serve {r pick ms d f t} (chosen : s.mayServe r) (busy : s.slot r = .busy f)
      (ran : runTurn (s.turnOf r pick ms d) = .next t) : StepEffect s t
  | accept {r cmd rest} (made : s.nextMove = some (.issue r cmd, rest)) (idle : s.slot r = .idle) :
      StepEffect s (State.setSlot { s with moves := rest } r (.busy ⟨cmd, []⟩))
  | take {r a rest} (made : s.nextMove = some (.take r, rest)) (done : s.slot r = .done a) :
      StepEffect s { State.setSlot { s with moves := rest } r .idle with received := s.received ++ [⟨r, a⟩] }
  | hostWrite {e v rest} (made : s.nextMove = some (.hostWrite e v, rest)) :
      StepEffect s (State.storeWord { s with moves := rest } e.toNat v)
  | reset {rest} (made : s.nextMove = some (.reset, rest)) : StepEffect s (State.resetBlock { s with moves := rest })

/-- The turn of a Busy requester: a response, or a write step of the INITTABLE in its slot. -/
theorem runTurn_busy {s t : State} {f : InFlight} (busy : s.slot s.turn.client = .busy f) (ran : runTurn s = .next t) :
    (∃ st v, (st ≠ .ok → v = 0) ∧ t = s.respond st v) ∨
      ∃ n base cap, f.cmd = encode (.inittable n base cap) ∧ boundsViolated n base cap = false ∧
        s.written.length < n.toNat ∧ t = s.writeElement n base cap := by
  rcases runTurn_cases s with ⟨notBusy, -⟩ | ⟨g, slot, ⟨st, v, zero, h⟩ | ⟨n, base, cap, legal, fits, room, h⟩⟩
  · exact absurd busy (notBusy f)
  · exact .inl ⟨st, v, zero, Host.Outcome.next.inj (ran.symm.trans h)⟩
  · obtain rfl := Slot.busy.inj (busy.symm.trans slot)
    exact .inr ⟨n, base, cap, (encode_of_decode legal).symm, fits, room, Host.Outcome.next.inj (ran.symm.trans h)⟩

theorem silentTurn_effect {s t : State} (none : s.nextMove = none) (h : silentTurn s = .next t) : StepEffect s t := by
  rcases silentTurn_cases s with ⟨-, e⟩ | ⟨r, f, -, e⟩
  · obtain rfl := Host.Outcome.next.inj (e.symm.trans h)
    exact .wait (r := s.turn.client) (pick := s.turn.pick) (ms := s.moves) (d := s.draws)
  · have ran : runTurn (s.turnOf r (Config.freePick s.draws) s.moves (s.draws + 1)) = .next t := e.symm.trans h
    cases slot : s.slot r with
    | busy g => exact .serve (.inl none) slot ran
    | idle =>
      simp only [runTurn, slot_turnOf, State.turnOf_turn, slot] at ran
      exact Host.Outcome.next.inj ran ▸ .wait
    | done a =>
      simp only [runTurn, slot_turnOf, State.turnOf_turn, slot] at ran
      exact Host.Outcome.next.inj ran ▸ .wait

theorem takeMove_effect {s t : State} {m : Move} {rest : List Move} (made : s.nextMove = some (m, rest))
    (h : takeMove m { s with moves := rest } = .next t) : StepEffect s t := by
  obtain ⟨can, -⟩ := firstPossible_some made
  cases m with
  | run r pick =>
    obtain ⟨f, busy⟩ := (possible_run r pick s).mp can
    exact .serve (.inr ⟨pick, rest, made⟩) busy (ms := rest) (d := s.draws) h
  | issue r cmd =>
    have idle := (possible_issue r cmd s).mp can
    rw [takeMove, State.accept, show State.slot { s with moves := rest } r = .idle from idle] at h
    exact Host.Outcome.next.inj h ▸ .accept made idle
  | take r =>
    obtain ⟨a, done⟩ := (possible_take r s).mp can
    rw [takeMove, State.takeResponse, show State.slot { s with moves := rest } r = .done a from done] at h
    exact Host.Outcome.next.inj h ▸ .take made done
  | hostWrite e v => exact Host.Outcome.next.inj h ▸ .hostWrite made
  | reset => exact Host.Outcome.next.inj h ▸ .reset made

theorem step_effect {s t : State} (h : step s = .next t) : StepEffect s t := by
  cases made : s.nextMove with
  | none => exact silentTurn_effect made ((step_silent made).symm.trans h)
  | some next => exact takeMove_effect made ((step_nextMove made).symm.trans h)

/-! ### The invariant -/

theorem recordAllowed_nil (cmd : Command) : recordAllowed cmd [] = true := by
  unfold recordAllowed
  split <;> rfl

theorem sound_inittable_iff (n base cap : Word) (ws : List Nat) :
    (Slot.busy ⟨encode (.inittable n base cap), ws⟩).sound = true ↔
      ws.Pairwise (· < ·) ∧ (ws = [] ∨ boundsViolated n base cap = false ∧ ∀ i ∈ ws, i < n.toNat) := by
  simp only [Slot.sound, recordAllowed, decode_encode, Bool.and_eq_true, decide_eq_true_iff, Bool.or_eq_true,
    List.isEmpty_iff, Bool.not_eq_true', List.all_eq_true]
  rfl

/-- Under the invariant W is a strictly rising list of indices below N (R19). -/
theorem inittable_record {s : State} (h : s.Inv) {r : Nat} {n base cap : Word} {ws : List Nat}
    (busy : s.slot r = .busy ⟨encode (.inittable n base cap), ws⟩) : ws.Pairwise (· < ·) ∧ ∀ i ∈ ws, i < n.toNat := by
  obtain ⟨rises, allowed⟩ := (sound_inittable_iff n base cap ws).mp (busy ▸ slot_sound h r)
  rcases allowed with rfl | ⟨-, below⟩
  · exact ⟨rises, List.forall_mem_nil _⟩
  · exact ⟨rises, below⟩

/-- A write step keeps the invariant: the index it adds to W is below N, and with base + N at most 2^32 its element exists. -/
theorem writeElement_keeps_Inv {s : State} (h : s.Inv) {n base cap : Word} {ws : List Nat}
    (busy : s.slot s.turn.client = .busy ⟨encode (.inittable n base cap), ws⟩) (fits : boundsViolated n base cap = false)
    (room : s.written.length < n.toNat) : (s.writeElement n base cap).Inv := by
  obtain ⟨-, top⟩ := (boundsViolated_false_iff n base cap).mp fits
  have written : s.written = ws := written_of_busy busy
  have next_below : s.nextIndex n < n.toNat := nextIndex_lt room
  obtain ⟨rises, below⟩ := inittable_record h busy
  refine setSlot_keeps_Inv (storeWord_keeps_Inv h ?_ _) _ ?_
  · show base.toNat + s.nextIndex n < 2 ^ 32
    omega
  · refine (sound_inittable_iff n base cap _).mpr ⟨insertIndex_keeps_rising (written ▸ rises) _, .inr ⟨fits, fun i hi => ?_⟩⟩
    rcases (mem_insertIndex _ _ _).mp hi with rfl | before
    · exact next_below
    · exact below i (written ▸ before)

theorem runTurn_keeps_Inv {s t : State} {f : InFlight} (h : s.Inv) (busy : s.slot s.turn.client = .busy f)
    (ran : runTurn s = .next t) : t.Inv := by
  rcases runTurn_busy busy ran with ⟨st, v, zero, rfl⟩ | ⟨n, base, cap, cmd, fits, room, rfl⟩
  · exact respond_keeps_Inv h zero
  · obtain ⟨_, ws⟩ := f
    obtain rfl : _ = encode (.inittable n base cap) := cmd
    exact writeElement_keeps_Inv h busy fits room

theorem withReceived_keeps_Inv {s : State} (h : s.Inv) {x : Receipt} (sound : x.response.sound = true) :
    State.Inv { s with received := s.received ++ [x] } := by
  obtain ⟨rom, mem, slots, listed, taken⟩ := h
  refine ⟨rom, mem, slots, listed, fun y hy => ?_⟩
  rcases List.mem_append.mp hy with before | new
  · exact taken y before
  · rwa [List.mem_singleton.mp new]

theorem step_keeps_Inv {s t : State} (h : s.Inv) (stepped : step s = .next t) : t.Inv := by
  cases step_effect stepped with
  | wait => exact h
  | @serve r pick ms d f _ chosen busy ran => exact runTurn_keeps_Inv (s := s.turnOf r pick ms d) h busy ran
  | @accept r cmd rest made idle =>
    exact setSlot_keeps_Inv (s := { s with moves := rest }) h r (by simp [Slot.sound, recordAllowed_nil])
  | @take r a rest made done =>
    have sound : (Slot.done a).sound = true := done ▸ slot_sound h r
    exact withReceived_keeps_Inv (setSlot_keeps_Inv (s := { s with moves := rest }) h r (x := .idle) rfl) sound
  | @hostWrite e v rest made => exact storeWord_keeps_Inv (s := { s with moves := rest }) h e.isLt v
  | @reset rest made => exact resetBlock_keeps_Inv (s := { s with moves := rest }) h

/-! ### What a step changes -/

theorem step_rom {s t : State} (stepped : step s = .next t) : t.rom = s.rom := by
  cases step_effect stepped with
  | serve chosen busy ran => rcases runTurn_busy busy ran with ⟨st, v, -, rfl⟩ | ⟨n, base, cap, -, -, -, rfl⟩ <;> rfl
  | _ => rfl

/-- A turn leaves the client who it is. -/
theorem runTurn_client {s t : State} {f : InFlight} (busy : s.slot s.turn.client = .busy f) (ran : runTurn s = .next t) :
    t.turn.client = s.turn.client := by
  rcases runTurn_busy busy ran with ⟨st, v, -, rfl⟩ | ⟨n, base, cap, -, -, -, rfl⟩ <;> rfl

/-- A word that a turn changes is one the client's INITTABLE writes. -/
theorem runTurn_hostWord {s t : State} {f : InFlight} (busy : s.slot s.turn.client = .busy f) (ran : runTurn s = .next t) (e : Nat) :
    t.hostWord e = s.hostWord e ∨ ∃ v, t.hostWord e = some v ∧ s.blockWrites t s.turn.client e v := by
  rcases runTurn_busy busy ran with ⟨st, v, -, rfl⟩ | ⟨n, base, cap, cmd, fits, room, rfl⟩
  · exact .inl rfl
  · by_cases here : elementAddress base (s.nextIndex n) = e
    · refine .inr ⟨_, by rw [hostWord_writeElement, if_pos here], f, insertIndex (s.nextIndex n) s.written, n, base, cap,
        s.nextIndex n, busy, ?_, ?_, fits, nextIndex_lt room, (mem_insertIndex ..).mpr (.inl rfl), here.symm, rfl⟩
      · rw [slot_writeElement_client, cmd]
      · rw [cmd, decode_encode]
    · exact .inl (by rw [hostWord_writeElement, if_neg here])

/-- The client's slot after its turn: Done, or Busy with the same command. -/
theorem runTurn_slot_client {s t : State} {f : InFlight} (busy : s.slot s.turn.client = .busy f) (ran : runTurn s = .next t) :
    (∃ a, t.slot s.turn.client = .done a) ∨ ∃ ws, t.slot s.turn.client = .busy ⟨f.cmd, ws⟩ := by
  rcases runTurn_busy busy ran with ⟨st, v, -, rfl⟩ | ⟨n, base, cap, cmd, -, -, rfl⟩
  · exact .inl ⟨_, slot_respond_client _ _ _⟩
  · exact .inr ⟨_, cmd ▸ slot_writeElement_client _ _ _ _⟩

end Sys2Proof.Machine

open Sys2Proof Sys2Proof.Machine

/-- Settles O17: each effect of a step is an update that keeps the invariant. -/
theorem stepKeepsInv : Obligations.StepKeepsInv := fun _ _ => step_keeps_Inv

/-- Settles O18: no effect of a step touches the ROM. -/
theorem noStepChangesTheRom : Obligations.NoStepChangesTheRom := fun _ _ => step_rom

/-- Settles O19: among the effects of a step only a turn of the block and another agent's write store a word. -/
theorem onlyInittableWritesMemory : Obligations.OnlyInittableWritesMemory := fun s t e stepped => by
  cases step_effect stepped with
  | @serve r pick ms d f _ chosen busy ran =>
    rcases runTurn_hostWord (s := s.turnOf r pick ms d) busy ran e with same | ⟨v, stored, writes⟩
    · exact .inl same
    · exact .inr (.inl ⟨r, v, ⟨runTurn_client (s := s.turnOf r pick ms d) busy ran, chosen⟩, stored, writes,
        (runTurn_slots ran).1⟩)
  | @hostWrite a v rest made =>
    by_cases here : a.toNat = e
    · exact .inr (.inr ⟨a, v, rest, made, here, by rw [hostWord_storeWord, if_pos here]⟩)
    · exact .inl (by rw [hostWord_storeWord, if_neg here]; rfl)
  | _ => exact .inl rfl

/-- Settles O20: among the effects of a step each but reset changes the slot of one requester alone. -/
theorem slotsChangeOnlyByTheirOwnRequester : Obligations.SlotsChangeOnlyByTheirOwnRequester := fun s t r stepped changed => by
  cases step_effect stepped with
  | wait => exact absurd rfl changed
  | @serve q pick ms d f _ chosen busy ran =>
    have mine : r = q := not_not.mp fun other => changed ((runTurn_slots ran).1 r other)
    subst mine
    exact .inr (.inl ⟨⟨runTurn_client (s := s.turnOf r pick ms d) busy ran, chosen⟩, f, busy,
      runTurn_slot_client (s := s.turnOf r pick ms d) busy ran⟩)
  | @accept q cmd rest made idle =>
    have mine : q = r := not_not.mp fun other => changed (by rw [slot_setSlot, if_neg other]; rfl)
    subst mine
    exact .inl ⟨cmd, rest, made, idle, slot_setSlot_same _ _ _⟩
  | @take q a rest made done =>
    have mine : q = r := not_not.mp fun other => changed ((slot_setSlot _ q r .idle).trans (if_neg other))
    subst mine
    exact .inr (.inr (.inl ⟨rest, a, made, done, slot_setSlot_same s q .idle⟩))
  | hostWrite made => exact absurd rfl changed
  | @reset rest made => exact .inr (.inr (.inr ⟨rest, made, rfl⟩))

end

section
/-! PROOFS. 10_state.md R18, 60_exceptions.md R105 and 70_reset_and_hazards.md R106 to R109, R114, one move at a time: which step is
made, what it does, and which moves wait. -/

namespace Sys2Proof.Machine

/-! ### The turn of a command -/

theorem runTurn_of_decode {s : State} {f : InFlight} {i : Instr} (busy : s.slot s.turn.client = .busy f)
    (legal : decode f.cmd = .ok i) : runTurn s = exec i s := by
  simp only [runTurn, busy, legal]

/-- R49, R92: a command that does not decode is answered with E_ILLEGAL. -/
theorem runTurn_of_illegal {s : State} {f : InFlight} (busy : s.slot s.turn.client = .busy f)
    (illegal : ∀ i, decode f.cmd ≠ .ok i) : runTurn s = .next (s.respond .eIllegal 0) := by
  cases d : decode f.cmd with
  | ok i => exact absurd d (illegal i)
  | error e => simp only [runTurn, busy, d, raise_eq]

/-- A run move at the head of the list whose slot is Busy is the next step. -/
theorem step_run {s : State} {r pick : Nat} {rest : List Move} {f : InFlight} (head : s.moves = .run r pick :: rest)
    (busy : s.slot r = .busy f) : step s = runTurn (s.turnOf r pick rest s.draws) :=
  step_move head ((possible_run r pick s).mpr ⟨f, busy⟩)

theorem step_run_decode {s : State} {r pick : Nat} {rest : List Move} {f : InFlight} {i : Instr}
    (head : s.moves = .run r pick :: rest) (busy : s.slot r = .busy f) (legal : decode f.cmd = .ok i) :
    step s = exec i (s.turnOf r pick rest s.draws) :=
  (step_run head busy).trans (runTurn_of_decode (s := s.turnOf r pick rest s.draws) busy legal)

/-- With no move that can be made, the step runs the command of some Busy requester where there is one (R114). -/
theorem step_silent_busy {s : State} (canonical : Slots.wf s.slots) (waits : s.everyMoveWaits)
    (someBusy : ∃ q g, s.slot q = .busy g) :
    ∃ r pick f, s.slot r = .busy f ∧ step s = runTurn (s.turnOf r pick s.moves (s.draws + 1)) := by
  rw [step_silent ((everyMoveWaits_iff s).mp waits)]
  rcases silentTurn_cases s with ⟨empty, -⟩ | ⟨r, f, listed, h⟩
  · obtain ⟨q, g, busy⟩ := someBusy
    have listed : q ∈ busyRequesters s.slots := (mem_busyRequesters _ _).mpr ⟨g, mem_slots_of_slot busy (by simp)⟩
    rw [empty] at listed
    cases listed
  · exact ⟨r, _, f, slot_of_mem canonical listed, h⟩

/-- With none Busy it waits (R109). -/
theorem step_silent_idle {s : State} (canonical : Slots.wf s.slots) (waits : s.everyMoveWaits) (quiet : s.noneBusy) :
    step s = .next s := by
  rw [step_silent ((everyMoveWaits_iff s).mp waits)]
  rcases silentTurn_cases s with ⟨-, h⟩ | ⟨r, f, listed, -⟩
  · exact h
  · exact absurd (slot_of_mem canonical listed) (quiet r f)

/-! ### A step always answers, and a waiting move stays out of it -/

theorem exists_step (s : State) : ∃ t, step s = .next t := by
  cases made : s.nextMove with
  | none =>
    obtain ⟨t, h, -⟩ := silentTurn_moves s
    exact ⟨t, (step_silent made).trans h⟩
  | some next =>
    obtain ⟨t, h, -⟩ := takeMove_moves next.1 { s with moves := next.2 }
    exact ⟨t, (step_nextMove made).trans h⟩

/-- What a step carries out is the same whatever the list of moves, once the move is made: the moves that stay are put back. -/
theorem step_waiting {s : State} {before after : List Move} {m : Move} (list : s.moves = before ++ m :: after)
    (wait : m.possible s = false) :
    ∃ t left right, step { s with moves := before ++ after } = .next t ∧ t.moves = left ++ right ∧
      left.Sublist before ∧ right.Sublist after ∧ step s = .next { t with moves := left ++ m :: right } := by
  rcases firstPossible_waiting wait before after with ⟨without, withMove⟩ | ⟨x, left, right, subL, subR, without, withMove⟩
  · obtain ⟨t, h, moves, all⟩ := silentTurn_moves { s with moves := before ++ after }
    have none : State.nextMove { s with moves := before ++ after } = none := (firstPossible_withMoves s _ _).trans without
    refine ⟨t, before, after, (step_silent none).trans h, moves, .refl _, .refl _, ?_⟩
    rw [step_silent (by rw [State.nextMove, list, withMove]), ← all]
    exact congrArg (fun ms => silentTurn { s with moves := ms }) list
  · obtain ⟨t, h, moves, all⟩ := takeMove_moves x { s with moves := left ++ right }
    have made : State.nextMove { s with moves := before ++ after } = some (x, left ++ right) :=
      (firstPossible_withMoves s _ _).trans without
    refine ⟨t, left, right, (step_nextMove made).trans h, moves, subL, subR, ?_⟩
    rw [step_nextMove (by rw [State.nextMove, list, withMove]), ← all]

theorem step_waiting_head {s : State} {rest : List Move} {m : Move} (list : s.moves = m :: rest) (wait : m.possible s = false) :
    ∃ t, step { s with moves := rest } = .next t ∧ step s = .next { t with moves := m :: t.moves } := by
  obtain ⟨t, left, right, h, moves, nothing, -, all⟩ := step_waiting (before := []) list wait
  obtain rfl := List.sublist_nil.mp nothing
  exact ⟨t, h, by rw [all, moves]; rfl⟩

theorem issue_waits {s : State} {r : Nat} {cmd : Command} (notIdle : s.slot r ≠ .idle) : (Move.issue r cmd).possible s = false := by
  simpa only [← Bool.not_eq_true, possible_issue] using notIdle

theorem take_waits {s : State} {r : Nat} (notDone : ∀ a, s.slot r ≠ .done a) : (Move.take r).possible s = false := by
  simpa only [← Bool.not_eq_true, possible_take, not_exists] using notDone

theorem run_waits {s : State} {r pick : Nat} (notBusy : ∀ f, s.slot r ≠ .busy f) : (Move.run r pick).possible s = false := by
  simpa only [← Bool.not_eq_true, possible_run, not_exists] using notBusy

/-! ### Accepting a command and taking a response -/

theorem accept_of_idle {s : State} {r : Nat} (idle : s.slot r = .idle) (cmd : Command) :
    s.accept r cmd = s.setSlot r (.busy ⟨cmd, []⟩) := by
  simp only [State.accept, idle]

theorem takeResponse_of_done {s : State} {r : Nat} {a : Response} (done : s.slot r = .done a) :
    s.takeResponse r = { s.setSlot r .idle with received := s.received ++ [⟨r, a⟩] } := by
  simp only [State.takeResponse, done]

theorem setSlot_sameOutsideSlot (s : State) (r : Nat) (x : Slot) : s.sameOutsideSlot (s.setSlot r x) r :=
  ⟨rfl, fun _ => rfl, rfl, fun other apart => by rw [slot_setSlot, if_neg apart.symm]⟩

theorem responsesOf_append (s : State) (r other : Nat) (a : Response) :
    State.responsesOf { s with received := s.received ++ [⟨r, a⟩] } other =
      s.responsesOf other ++ if r = other then [a] else [] := by
  by_cases mine : r = other <;> simp [State.responsesOf, List.filter_append, mine]

end Sys2Proof.Machine

open Sys2Proof Sys2Proof.Machine

/-- Settles O8: a move that is made answers, and so does the block's own step. -/
theorem everyStepAnswersNext : Obligations.EveryStepAnswersNext := exists_step

/-- Settles O5: the run move is the one made, and its turn is the execution of what the command decodes to. -/
theorem stepRunsTheDecodedInstruction : Obligations.StepRunsTheDecodedInstruction := fun _ _ _ _ _ _ => step_run_decode

/-- Settles O6: the block's own step is the turn of a Busy requester, which executes a legal command and answers an illegal one. -/
theorem silentStepRunsSomeBusyCommand : Obligations.SilentStepRunsSomeBusyCommand := fun s canonical waits someBusy => by
  obtain ⟨r, pick, f, busy, h⟩ := step_silent_busy canonical waits someBusy
  refine ⟨r, pick, f, busy, fun i legal => h.trans (runTurn_of_decode busy legal), fun illegal => ?_⟩
  refine ⟨_, h.trans (runTurn_of_illegal busy illegal), slot_respond_client _ _ _, respond_sameOutsideSlot _ _ _, rfl, rfl, rfl⟩

/-- Settles O7: the placed run move is first in the list and its slot was just made Busy. -/
theorem fetchedWordRunsNext : Obligations.FetchedWordRunsNext := fun s nbits w i decoded => by
  have legal : decode (tableCommand nbits w) = .ok i := by
    unfold decodeTableWord at decoded
    split at decoded
    next j h => rw [h, Option.some.inj decoded]
    next => cases decoded
  have busy : (s.withFetchWord nbits w).slot 0 = .busy ⟨tableCommand nbits w, []⟩ :=
    slot_setSlot_same s 0 (.busy ⟨tableCommand nbits w, []⟩)
  exact stepRunsTheDecodedInstruction _ 0 s.turn.pick s.moves _ i rfl busy legal

/-- Settles O9: the run move is the one made, and what is not legal does not decode. -/
theorem illegalCommandAnswersEIllegal : Obligations.IllegalCommandAnswersEIllegal := fun s r pick rest f head busy illegal => by
  have rejected : ∀ i, decode f.cmd ≠ .ok i := fun i legal => illegal ((legalCommandsDecode f.cmd).mp ⟨i, legal⟩)
  exact ⟨_, (step_run head busy).trans (runTurn_of_illegal busy rejected), slot_respond_client _ _ _,
    respond_sameOutsideSlot _ _ _, rfl⟩

/-- Settles O10: an offer can be made exactly where the slot is Idle; otherwise it waits at the head of the list. -/
theorem commandsAreAcceptedOnlyInIdle : Obligations.CommandsAreAcceptedOnlyInIdle := fun s r cmd rest head => by
  refine ⟨fun idle => ?_, fun notIdle => step_waiting_head head (issue_waits notIdle)⟩
  have made : step s = .next (State.accept { s with moves := rest } r cmd) :=
    step_move head ((possible_issue r cmd s).mpr idle)
  rw [accept_of_idle (s := { s with moves := rest }) idle] at made
  exact ⟨_, made, setSlot_sameOutsideSlot _ r _, rfl, slot_setSlot_same _ _ _⟩

/-- Settles O11: a take can be made exactly where there is a response; otherwise it waits at the head of the list. -/
theorem takingAResponseFreesTheSlot : Obligations.TakingAResponseFreesTheSlot := fun s r rest head => by
  refine ⟨fun a done => ?_, fun notDone => step_waiting_head head (take_waits notDone)⟩
  have made : step s = .next (State.takeResponse { s with moves := rest } r) :=
    step_move head ((possible_take r s).mpr ⟨a, done⟩)
  rw [takeResponse_of_done (s := { s with moves := rest }) done] at made
  obtain ⟨-, -, -, others⟩ := setSlot_sameOutsideSlot s r .idle
  refine ⟨_, made, slot_setSlot_same s r .idle, ?_, rfl, rfl, fun _ => rfl, fun other apart =>
    ⟨others other apart, ?_⟩⟩
  · exact (responsesOf_append s r r a).trans (by rw [if_pos rfl])
  · exact (responsesOf_append s r other a).trans (by rw [if_neg apart.symm, List.append_nil])

/-- Settles O12: reset can always be made, and no listed slot is left. -/
theorem resetIdlesEverySlotAndKeepsMemory : Obligations.ResetIdlesEverySlotAndKeepsMemory := fun s _ head =>
  ⟨_, step_move head (possible_reset s), slot_resetBlock _, rfl, rfl, fun _ => rfl, rfl, rfl⟩

/-- Settles O13: the write can always be made, and it stores one word. -/
theorem hostWriteChangesOneWord : Obligations.HostWriteChangesOneWord := fun s e v rest head => by
  refine ⟨_, step_move head (possible_hostWrite e v s), ?_, fun x apart => ?_, rfl, rfl, rfl, fun _ => rfl⟩
  · rw [hostWord_storeWord, operand_eq, if_pos rfl]
  · rw [hostWord_storeWord, operand_eq, if_neg apart.symm]
    rfl

/-- Settles O14: the invariant's canonical slots list no Busy requester where none is Busy. -/
theorem idleBlockWaits : Obligations.IdleBlockWaits := fun s inv waits quiet => by
  obtain ⟨-, -, canonical, -⟩ := inv
  exact step_silent_idle canonical waits quiet

/-- Settles O15: a requester that is not listed is Idle, and none is listed. -/
theorem resetStateIsAsTheSpecSays : Obligations.ResetStateIsAsTheSpecSays := ⟨rfl, slot_resetBlock State.reset, rfl⟩

/-- Settles O16: memory, slots and responses are empty lists. -/
theorem invHoldsAtReset : Obligations.InvHoldsAtReset := by
  refine ⟨rfl, reset_mem_wf, ⟨List.Pairwise.nil, ?_⟩, ?_, ?_⟩ <;> exact List.forall_mem_nil _

/-- Settles O54: a move whose slot is not in the state it asks for cannot be made. -/
theorem movesWithoutAStepWait : Obligations.MovesWithoutAStepWait := fun s before after m list wait => by
  refine step_waiting list ?_
  rcases wait with ⟨r, cmd, rfl, notIdle⟩ | ⟨r, rfl, notDone⟩ | ⟨r, pick, rfl, notBusy⟩
  · exact issue_waits notIdle
  · exact take_waits notDone
  · exact run_waits notBusy

end

section
/-! PROOFS. 40_sqrt_table.md R59, R60, 43_approximator.md R73 and 44_table_initializer.md R84 to R87: what each operation answers, and
its frame. -/

namespace Sys2Proof.Machine

/-! ### Responses -/

/-- A response is all that a step which answers changes. -/
theorem exec_respond_frame {i : Instr} {s : State} {st : Status} {v : Word} (h : exec i s = .next (s.respond st v)) :
    ∃ t, exec i s = .next t ∧ t.slot s.turn.client = .done ⟨st, v⟩ ∧ s.sameOutsideSlot t s.turn.client ∧ s.sameModelFields t :=
  ⟨_, h, slot_respond_client s st v, respond_sameOutsideSlot s st v, respond_sameModelFields s st v⟩

/-- R52, of the answer of every instruction. -/
theorem answer_result_of_error (rom : Rom) (i : Instr) (error : (answer rom i).status ≠ .ok) : (answer rom i).result = 0 := by
  cases i with
  | sqrt n b c => exact absurd rfl error
  | tlookup i b c =>
    rw [answer] at error ⊢
    split_ifs at error ⊢
    · rfl
    · exact absurd rfl error
  | inittable n base cap =>
    rw [answer]
    split_ifs <;> rfl

theorem exec_tlookup_inside {i : Word} (inside : i.toNat ≤ 100) (b c : Word) (s : State) :
    exec (.tlookup i b c) s = .next (s.respond .ok (s.rom.word i.toNat)) := by
  rcases execTlookup_cases i b c s with ⟨beyond, -⟩ | ⟨-, h⟩
  · exact absurd beyond (Nat.not_lt.mpr inside)
  · exact h

theorem exec_tlookup_beyond {i : Word} (beyond : 100 < i.toNat) (b c : Word) (s : State) :
    exec (.tlookup i b c) s = .next (s.respond .eIndex 0) := by
  rcases execTlookup_cases i b c s with ⟨-, h⟩ | ⟨inside, -⟩
  · exact h
  · exact absurd beyond (Nat.not_lt.mpr inside)

theorem exec_inittable_outOfBounds {n base cap : Word} (bad : boundsViolated n base cap = true) (s : State) :
    exec (.inittable n base cap) s = .next (s.respond .eBounds 0) :=
  if_pos bad

theorem exec_inittable_room {n base cap : Word} {s : State} (fits : boundsViolated n base cap = false)
    (room : s.written.length < n.toNat) : exec (.inittable n base cap) s = .next (s.writeElement n base cap) :=
  (if_neg (Bool.eq_false_iff.mp fits)).trans (if_pos room)

/-! ### The frame of a write step -/

theorem writeElement_others (s : State) (n base cap : Word) (other : Nat) (apart : other ≠ s.turn.client) :
    (s.writeElement n base cap).slot other = s.slot other := by
  rw [slot_writeElement, if_neg apart.symm]

theorem writeElement_hostWord_other (s : State) (n base cap : Word) {e : Nat} (apart : e ≠ elementAddress base (s.nextIndex n)) :
    (s.writeElement n base cap).hostWord e = s.hostWord e := by
  rw [hostWord_writeElement, if_neg apart.symm]

theorem writeElement_hostWord_next (s : State) (n base cap : Word) :
    (s.writeElement n base cap).hostWord (elementAddress base (s.nextIndex n)) =
      some (sqrt100 s.rom (BitVec.ofNat 32 (s.nextIndex n))) := by
  rw [hostWord_writeElement, if_pos rfl]

theorem writeElement_sameModelFields (s : State) (n base cap : Word) : s.sameModelFields (s.writeElement n base cap) :=
  ⟨rfl, rfl, rfl⟩

end Sys2Proof.Machine

open Sys2Proof Sys2Proof.Machine

/-- Settles O22: a response of an execution is the instruction's answer. -/
theorem errorResultsAreZero : Obligations.ErrorResultsAreZero := fun i s _ _ ran done => by
  rw [exec_done_eq_answer ran done]
  exact answer_result_of_error s.rom i

/-- Settles O23: neither meaning mentions the ignored words. -/
theorem ignoredOperandsHaveNoEffect : Obligations.IgnoredOperandsHaveNoEffect := fun _ _ _ _ _ _ => ⟨rfl, rfl⟩

/-- Settles O26: the entry of the intact table is the rounded root. -/
theorem tlookupAnswersTheEntry : Obligations.TlookupAnswersTheEntry := fun s i b c intact inside => by
  obtain ⟨t, ran, done, frame⟩ := exec_respond_frame (exec_tlookup_inside inside b c s)
  refine ⟨t, _, ran, done, ?_, frame⟩
  rw [intact]
  exact entry_eq_roundedRoot inside

/-- Settles O27: beyond the table the response is E_INDEX. -/
theorem tlookupBeyondTheTableAnswersEIndex : Obligations.TlookupBeyondTheTableAnswersEIndex := fun s _ b c beyond =>
  exec_respond_frame (exec_tlookup_beyond beyond b c s)

/-- Settles O35: SQRT has one case, the response OK. -/
theorem sqrtNeverErrs : Obligations.SqrtNeverErrs := fun s n b c => by
  obtain ⟨t, answered⟩ := exec_respond_frame (i := .sqrt n b c) (execSqrt_eq n b c s)
  exact ⟨t, _, answered⟩

/-- Settles O42: either condition is the violation of the bounds, which is looked at first. -/
theorem inittableOutOfBoundsWritesNothing : Obligations.InittableOutOfBoundsWritesNothing := fun s n base cap bad =>
  exec_respond_frame (exec_inittable_outOfBounds ((boundsViolated_iff n base cap).mpr bad) s)

/-- Settles O46: a response stores nothing, and a write step stores one word and does not answer. -/
theorem inittableFrame : Obligations.InittableFrame := fun s t n base cap ran => by
  rcases exec_answers_or_writes (.inittable n base cap) s with h | ⟨_, _, _, same, -, h⟩
  · obtain rfl := Host.Outcome.next.inj (h.symm.trans ran)
    obtain ⟨rom, mem, received, others⟩ := respond_sameOutsideSlot s (answer s.rom (.inittable n base cap)).status
      (answer s.rom (.inittable n base cap)).result
    exact ⟨fun e _ => mem e, fun _ _ => mem, rom, received, respond_sameModelFields s _ _, others⟩
  · cases same
    obtain rfl := Host.Outcome.next.inj (h.symm.trans ran)
    refine ⟨fun e => writeElement_hostWord_other s n base cap, fun a done => ?_, rfl, rfl, writeElement_sameModelFields s n base cap,
      writeElement_others s n base cap⟩
    rw [slot_writeElement_client] at done
    cases done

end

section
/-! PROOFS. 41_range_reducer.md R66, 42_table_interpolator.md R70 and 43_approximator.md R77 to R79: the fraction within a bucket, the
interpolated entry, and the one formula of sqrt_100 with its exact values. -/

namespace Sys2Proof.Machine

theorem bucketPosition_eq (delta pow100 : Nat) : bucketPosition delta pow100 = delta * 65536 / pow100 :=
  congrArg (· / pow100) (Nat.shiftLeft_eq delta 16)

theorem bucketPosition_eq_zero_iff {delta pow100 : Nat} (inside : delta < pow100) :
    bucketPosition delta pow100 = 0 ↔ delta ≤ (pow100 - 1) / 65536 := by
  rw [bucketPosition_eq, Nat.div_eq_zero_iff, Nat.le_div_iff_mul_le (by decide)]
  omega

/-- A proper fraction of the bucket's step falls short of the step, which is not empty (R70). -/
theorem interpolate_lt_entry_succ {nn ratio16 : Nat} (inside : nn ≤ 99) (fraction : ratio16 < 0x10000) :
    interpolate romContents nn ratio16 < romContents.entry (nn + 1) := by
  have rises : romContents.entry nn < romContents.entry (nn + 1) := entry_lt_succ inside
  have part : ((romContents.entry (nn + 1) - romContents.entry nn) * ratio16) / 65536 <
      romContents.entry (nn + 1) - romContents.entry nn :=
    Nat.div_lt_of_lt_mul (by
      rw [Nat.mul_comm]
      exact Nat.mul_lt_mul_of_pos_right fraction (Nat.sub_pos_of_lt rises))
  rw [interpolate_eq_formula romContents nn fraction]
  omega

/-- R78: sqrt_100 before the narrowing, by the one formula, at the `k` where the range reducer stops. -/
theorem sqrt100Exact_formula {n k : Nat} (h : n < 2 ^ 32) (turns : Nat.log 100 n = k) (rom : Rom) :
    sqrt100Exact rom n =
      ((rom.entry (n / 100 ^ k) + (rom.entry (n / 100 ^ k + 1) - rom.entry (n / 100 ^ k)) * (n % 100 ^ k * 65536 / 100 ^ k) / 65536) *
        10 ^ k) / 4096 := by
  rw [sqrt100Exact_eq h, turns, reducedRoot, interpolate_eq_formula rom _ (bucketPosition_mod_lt _ _),
    bucketPosition_eq, Nat.shiftRight_eq_div_pow]

end Sys2Proof.Machine

open Sys2Proof Sys2Proof.Machine

/-- Settles O30: the position is a proper fraction, and it is 0 where delta * 65536 is still below `pow100`. -/
theorem bucketPositionIsAFraction : Obligations.BucketPositionIsAFraction := fun _ pow100 inside =>
  ⟨Nat.le_of_lt_succ (bucketPosition_lt inside), bucketPosition_eq_zero_iff inside, fun _ le => bucketPosition_mono le pow100⟩

/-- Settles O31: what is added to the base entry is less than the bucket's step, and the table ends with 0xA0000000. -/
theorem interpolationStaysInItsBucket : Obligations.InterpolationStaysInItsBucket := fun nn ratio16 _ inside le => by
  have fraction : ratio16 < 0x10000 := Nat.lt_succ_of_le le
  have next := interpolate_lt_entry_succ inside fraction
  refine ⟨entry_le_interpolate romContents nn fraction, Nat.le_sub_one_of_lt next, ?_, fun more grows most =>
    interpolate_mono romContents nn grows (Nat.lt_succ_of_le most)⟩
  calc interpolate romContents nn ratio16 < romContents.entry (nn + 1) := next
    _ ≤ romContents.entry 100 := entry_le_last (by omega)
    _ = 0xA0000000 := by decide

/-- Settles O33: the least k is the logarithm to base 100, at which the formula holds, and the narrowing keeps its value. -/
theorem sqrtAnswersTheFormula : Obligations.SqrtAnswersTheFormula := fun s n b c intact => by
  obtain ⟨t, ran, done, frame⟩ := exec_respond_frame (i := .sqrt n b c) (execSqrt_eq n b c s)
  refine ⟨t, _, Nat.log 100 n.toNat, _, _, log_hundred_le_kMax n.isLt, rfl, reductionAt_log_nn_le n.toNat,
    fun _ => limit_lt_div_pow_iff.mpr, rfl, ran, done, ?_, frame⟩
  rw [intact, toNat_sqrt100]
  exact sqrt100Exact_formula n.isLt rfl romContents

/-- Settles O37: the largest number has the largest result, which fits. -/
theorem sqrtNeverOverflows : Obligations.SqrtNeverOverflows :=
  ⟨fun n => sqrt100Exact_le n.isLt, by decide, toNat_sqrt100⟩

/-- Settles O38: each of the 101 squares is evaluated. -/
theorem sqrtIsExactAtTheseSquares : Obligations.SqrtIsExactAtTheseSquares := by
  unfold Obligations.SqrtIsExactAtTheseSquares
  decide

/-- Settles O41: each of the ten values is evaluated. -/
theorem sqrtValuesOfTheSpec : Obligations.SqrtValuesOfTheSpec := by
  unfold Obligations.SqrtValuesOfTheSpec
  decide

end

section
/-! PROOFS. 43_approximator.md R81, 90_conflicts.md C3: the distance of the result from the real root. In the reduced case the result is
the chord of the root over its bucket, up to rounding, and a chord between roots whose squares are at most doubled falls short of the root
by less than 1.49 %. -/

namespace Sys2Proof.Machine

theorem abs_entry_sub_sqrt_lt {i : ℕ} (h : i ≤ 100) : |(romContents.entry i : ℝ) - √i * 2 ^ 28| < 1 / 2 :=
  (tableEntriesAreRoundedRoots i h).1

/-! ### The chord of the root -/

section
variable {a b y c : ℝ} (pos : 0 < a) (chord : c * (a + b) = y ^ 2 + a * b)
include pos chord

/-- The chord over `[a², b²]`, at `y²`, is below the root. -/
theorem chord_le_root (low : a ≤ y) (high : y ≤ b) : c ≤ y := by
  have product : 0 ≤ (y - a) * (b - y) := mul_nonneg (sub_nonneg.mpr low) (sub_nonneg.mpr high)
  refine le_of_mul_le_mul_right ?_ (show 0 < a + b by linarith)
  linarith

/-- By the means of `a` and `b`: `4ab` is at least `0.9851² (a + b)²` where `b` is at most `√2 a`. -/
theorem root_le_chord (ordered : a ≤ b) (narrow : b ^ 2 ≤ 2 * a ^ 2) : 0.9851 * y ≤ c := by
  have ratio : b ≤ 1.41422 * a := by
    refine le_of_sq_le_sq ?_ (by positivity)
    nlinarith [sq_nonneg a]
  have between : (b - a) * (b - 1.41422 * a) ≤ 0 :=
    mul_nonpos_of_nonneg_of_nonpos (sub_nonneg.mpr ordered) (sub_nonpos.mpr ratio)
  have means : (0.9851 * (a + b)) ^ 2 ≤ 4 * (a * b) := by
    nlinarith [mul_le_mul_of_nonneg_left ratio pos.le]
  refine le_of_mul_le_mul_right ?_ (show 0 < a + b by linarith)
  nlinarith [sq_nonneg (y - 0.9851 * (a + b) / 2)]

end

/-! ### Interpolation -/

/-- Replacing the ends of a chord by values within `ε` of them moves its points by at most `ε`. -/
theorem abs_combination_sub_le {a b a' b' p ε : ℝ} (nearA : |a' - a| ≤ ε) (nearB : |b' - b| ≤ ε) (p0 : 0 ≤ p) (p1 : p ≤ 1) :
    |(a' + (b' - a') * p) - (a + (b - a) * p)| ≤ ε := by
  calc |(a' + (b' - a') * p) - (a + (b - a) * p)| = |(a' - a) * (1 - p) + (b' - b) * p| := by congr 1; ring
    _ ≤ |(a' - a) * (1 - p)| + |(b' - b) * p| := abs_add_le _ _
    _ = |a' - a| * (1 - p) + |b' - b| * p := by rw [abs_mul, abs_mul, abs_of_nonneg (sub_nonneg.mpr p1), abs_of_nonneg p0]
    _ ≤ ε * (1 - p) + ε * p := by gcongr
    _ = ε := by ring

theorem abs_entry_div_sub_sqrt_le {i : ℕ} (h : i ≤ 100) : |(romContents.entry i : ℝ) / 2 ^ 28 - √i| ≤ 1 / 2 ^ 29 := by
  have near := abs_sub_lt_iff.mp (abs_entry_sub_sqrt_lt h)
  rw [abs_sub_le_iff]
  constructor <;> linarith

/-- A truncated quotient is within one of the quotient. -/
theorem cast_div_bounds (m d : ℕ) : (m : ℝ) / d - 1 < (m / d : ℕ) ∧ ((m / d : ℕ) : ℝ) ≤ m / d := by
  refine ⟨?_, Nat.cast_div_le⟩
  have := Nat.lt_floor_add_one ((m : ℝ) / d)
  rw [Nat.floor_div_eq_div] at this
  linarith

/-- R69's value between the rounded entries: at most the point of their chord at the truncated position, and less than one below. -/
theorem interpolate_bounds {nn ratio16 : ℕ} (inside : nn ≤ 99) (fraction : ratio16 < 0x10000) :
    |(interpolate romContents nn ratio16 : ℝ) / 2 ^ 28 -
      (romContents.entry nn / 2 ^ 28 + (romContents.entry (nn + 1) / 2 ^ 28 - romContents.entry nn / 2 ^ 28) * (ratio16 / 65536))|
      ≤ 1 / 2 ^ 28 := by
  have rises := (entry_lt_succ inside).le
  obtain ⟨low, high⟩ := cast_div_bounds ((romContents.entry (nn + 1) - romContents.entry nn) * ratio16) 65536
  rw [interpolate_eq_formula romContents nn fraction]
  push_cast [Nat.cast_sub rises] at low high ⊢
  rw [abs_sub_le_iff]
  constructor <;> linarith

/-- The interpolated root, at the truncated position of `nn + p`, is within 1.495 % of the root. -/
theorem abs_interpolate_sub_sqrt_le {nn ratio16 : ℕ} {p : ℝ} (first : 1 ≤ nn) (inside : nn ≤ 99) (fraction : ratio16 < 0x10000)
    (p1 : p < 1) (low : (ratio16 : ℝ) / 65536 ≤ p) (high : p ≤ ratio16 / 65536 + 1 / 65536) :
    |(interpolate romContents nn ratio16 : ℝ) / 2 ^ 28 - √(nn + p)| ≤ 0.01495 * √(nn + p) := by
  have first' : (1 : ℝ) ≤ nn := mod_cast first
  have q0 : (0 : ℝ) ≤ ratio16 / 65536 := by positivity
  have rounding := interpolate_bounds inside fraction
  have ends := abs_combination_sub_le (abs_entry_div_sub_sqrt_le (i := nn) (by omega))
    (abs_entry_div_sub_sqrt_le (i := nn + 1) (by omega)) q0 (low.trans p1.le)
  have a1 : 1 ≤ √(nn : ℝ) := Real.one_le_sqrt.mpr first'
  have ab : √(nn : ℝ) ≤ √((nn + 1 : ℕ) : ℝ) := Real.sqrt_le_sqrt (by push_cast; linarith)
  have ay : √(nn : ℝ) ≤ √(nn + p) := Real.sqrt_le_sqrt (by linarith)
  have yb : √(nn + p) ≤ √((nn + 1 : ℕ) : ℝ) := Real.sqrt_le_sqrt (by push_cast; linarith)
  have aa : √(nn : ℝ) ^ 2 = nn := Real.sq_sqrt (by linarith)
  have bb : √((nn + 1 : ℕ) : ℝ) ^ 2 = nn + 1 := by rw [Real.sq_sqrt (Nat.cast_nonneg _)]; push_cast; rfl
  have yy : √(nn + p) ^ 2 = nn + p := Real.sq_sqrt (by linarith)
  generalize √(nn : ℝ) = a at *
  generalize √((nn + 1 : ℕ) : ℝ) = b at *
  generalize √(nn + p) = y at *
  generalize (ratio16 : ℝ) / 65536 = q at *
  -- from here on the ends `a`, `b`, the root `y` and the truncated position `q` are any reals with the bounds above
  have chord : (a + (b - a) * p) * (a + b) = y ^ 2 + a * b := by linear_combination p * (bb - aa) + aa - yy
  have above := chord_le_root (by linarith) chord ay yb
  have below := root_le_chord (by linarith) chord ab (by linarith)
  have short : b - a ≤ 1 := by nlinarith
  have truncated : (b - a) * p - 1 / 65536 ≤ (b - a) * q := by nlinarith
  have ordered : (b - a) * q ≤ (b - a) * p := mul_le_mul_of_nonneg_left low (by linarith)
  rw [abs_sub_le_iff] at rounding ends ⊢
  constructor <;> linarith

/-! ### The approximator -/

/-- The position of `n` in its bucket of `d` numbers, truncated to sixteen bits. -/
theorem position_bounds (n : ℕ) {d : ℕ} (pos : 0 < d) :
    ((n % d : ℕ) : ℝ) / d < 1 ∧ ((n % d * 65536 / d : ℕ) : ℝ) / 65536 ≤ ((n % d : ℕ) : ℝ) / d ∧
      ((n % d : ℕ) : ℝ) / d ≤ ((n % d * 65536 / d : ℕ) : ℝ) / 65536 + 1 / 65536 := by
  have pos' : (0 : ℝ) < d := mod_cast pos
  obtain ⟨low, high⟩ := cast_div_bounds (n % d * 65536) d
  push_cast at low high ⊢
  refine ⟨(div_lt_one pos').mpr (mod_cast Nat.mod_lt n pos), ?_, ?_⟩
  · rw [mul_div_right_comm] at high
    linarith
  · rw [mul_div_right_comm] at low
    linarith

theorem sqrt_scaled (n k : ℕ) : √(n : ℝ) = √((n / 100 ^ k : ℕ) + ((n % 100 ^ k : ℕ) : ℝ) / (100 ^ k : ℕ)) * 10 ^ k := by
  have split : (n : ℝ) = ((n / 100 ^ k : ℕ) + ((n % 100 ^ k : ℕ) : ℝ) / (100 ^ k : ℕ)) * (10 ^ k) ^ 2 := by
    have whole : ((100 ^ k * (n / 100 ^ k) + n % 100 ^ k : ℕ) : ℝ) = n := congrArg Nat.cast (Nat.div_add_mod n (100 ^ k))
    have hundred : ((10 : ℝ) ^ k) ^ 2 = (100 ^ k : ℕ) := by push_cast; rw [← pow_mul, mul_comm, pow_mul]; norm_num
    have pos : ((100 ^ k : ℕ) : ℝ) ≠ 0 := by positivity
    rw [hundred, add_mul, div_mul_cancel₀ _ pos, ← whole]
    push_cast
    ring
  conv_lhs => rw [split]
  rw [Real.sqrt_mul' _ (by positivity), Real.sqrt_sq (by positivity)]

theorem abs_scaledRoot_sub_sqrt_le {n k : ℕ} (first : 1 ≤ n / 100 ^ k) (inside : n / 100 ^ k ≤ 99) :
    |(reducedRoot romContents n k : ℝ) / 2 ^ 28 * 10 ^ k - √n| ≤ 0.01495 * √n := by
  obtain ⟨p1, low, high⟩ := position_bounds n (d := 100 ^ k) (by positivity)
  rw [← bucketPosition_eq] at low high
  have near := abs_interpolate_sub_sqrt_le first inside (bucketPosition_mod_lt n k) p1 low high
  have scale : (0 : ℝ) ≤ 10 ^ k := by positivity
  rw [sqrt_scaled n k, ← sub_mul, abs_mul, abs_of_nonneg scale, ← mul_assoc]
  exact mul_le_mul_of_nonneg_right near scale

/-- Of every number but 0, sqrt_100 is within 1.5 % of the root: the last shift truncates to less than one unit. -/
theorem abs_sqrt100Exact_sub_sqrt_le {n : ℕ} (h : n < 2 ^ 32) (pos : n ≠ 0) :
    |(sqrt100Exact romContents n : ℝ) / 2 ^ 16 - √n| ≤ 15 / 1000 * √n := by
  have root : 1 ≤ √(n : ℝ) := Real.one_le_sqrt.mpr (mod_cast Nat.one_le_iff_ne_zero.mpr pos)
  have near := abs_scaledRoot_sub_sqrt_le (reductionAt_log_nn_pos pos) (reductionAt_log_nn_le n)
  obtain ⟨low, high⟩ := cast_div_bounds (reducedRoot romContents n (Nat.log 100 n) * 10 ^ Nat.log 100 n) (2 ^ 12)
  rw [sqrt100Exact_eq h, Nat.shiftRight_eq_div_pow]
  push_cast at low high
  rw [abs_sub_le_iff] at near ⊢
  constructor <;> linarith

end Sys2Proof.Machine

open Sys2Proof Sys2Proof.Machine

/-- Settles O39: the entry is within half a unit of its root, and the shift truncates to less than one unit of the result. -/
theorem sqrtExactCaseIsWithinOneUlp : Obligations.SqrtExactCaseIsWithinOneUlp := fun n small => by
  have near := abs_sub_lt_iff.mp (abs_entry_sub_sqrt_lt (i := n.toNat) (by omega))
  have low : ((romContents.entry n.toNat : ℕ) : ℝ) ≤ 4096 * (romContents.entry n.toNat / 4096 : ℕ) + 4095 := by
    exact_mod_cast (by omega : romContents.entry n.toNat ≤ 4096 * (romContents.entry n.toNat / 4096) + 4095)
  have high : 4096 * ((romContents.entry n.toNat / 4096 : ℕ) : ℝ) ≤ (romContents.entry n.toNat : ℕ) := by
    exact_mod_cast Nat.mul_div_le _ 4096
  rw [toNat_sqrt100, sqrt100Exact_of_le small, Nat.shiftRight_eq_div_pow, abs_sub_lt_iff]
  constructor <;> linarith

/-- Settles O40: 0 has the root 0; the other bound is an evaluation. -/
theorem sqrtRelativeErrorIsBounded : Obligations.SqrtRelativeErrorIsBounded := by
  refine ⟨fun n => ?_, ?_⟩
  · rw [toNat_sqrt100]
    rcases eq_or_ne n.toNat 0 with zero | pos
    · rw [zero]
      have : sqrt100Exact romContents 0 = 0 := by decide
      norm_num [this]
    · calc _ ≤ 15 / 1000 * √(n.toNat : ℝ) := abs_sqrt100Exact_sub_sqrt_le n.isLt pos
        _ ≤ _ := by gcongr; exact le_max_right _ _
  · have value : (sqrt100 romContents 141416931).toNat = 767785842 := by decide
    have root : (11891.5 : ℝ) < √141416931 := Real.lt_sqrt_of_sq_lt (by norm_num)
    rw [value]
    refine lt_abs.mpr (.inr ?_)
    norm_num
    linarith

end

section
/-! PROOFS. 44_table_initializer.md R83 to R87 and 70_reset_and_hazards.md R108: INITTABLE writes one unwritten element a step, any of
them next, and so the whole buffer in any order, or any part of it before a reset. -/

namespace Sys2Proof.Machine

/-! ### The choice of an element -/

theorem length_le_of_between {ws : List Nat} {low high : Nat} (rises : ws.Pairwise (· < ·))
    (between : ∀ w ∈ ws, low ≤ w ∧ w < high) : ws.length ≤ high - low := by
  have nodup : ws.Nodup := rises.imp Nat.ne_of_lt
  have sub : ws.toFinset ⊆ Finset.Ico low high := fun w hw => Finset.mem_Ico.mpr (between w (List.mem_toFinset.mp hw))
  simpa [List.toFinset_card_of_nodup nodup] using Finset.card_le_card sub

/-- Every index below N that is not in W is chosen by some pick (R86): those of W above it are fewer than the numbers between it
and N. -/
theorem exists_pick {n i : Nat} {ws : List Nat} (rises : ws.Pairwise (· < ·)) (ws_below : ∀ w ∈ ws, w < n) (below : i < n)
    (fresh : i ∉ ws) : ∃ pick, chosenIndex n ws pick = i := by
  obtain ⟨j, le, -, beyond, -, reached⟩ := nthUnwritten_reaches rises fresh
  have above : (ws.drop j).length ≤ n - (i + 1) :=
    length_le_of_between (rises.sublist (List.drop_sublist j ws)) fun w hw => ⟨beyond w hw, ws_below w (List.mem_of_mem_drop hw)⟩
  rw [List.length_drop] at above
  have rank : i - j < n - ws.length := by omega
  exact ⟨i - j, by rw [chosenIndex, Nat.mod_eq_of_lt rank, reached]⟩

theorem length_lt_of_unwritten {n j : Nat} {ws : List Nat} (rises : ws.Pairwise (· < ·)) (ws_below : ∀ w ∈ ws, w < n)
    (below : j < n) (fresh : j ∉ ws) : ws.length < n := by
  obtain ⟨short, full⟩ := indices_length rises ws_below
  exact lt_of_le_of_ne short fun same => fresh (full.mp same j below)

/-! ### One write step -/

section
variable {s : State} {n base cap : Word} {ws : List Nat}

theorem nextIndex_of_busy (busy : s.slot s.turn.client = .busy ⟨encode (.inittable n base cap), ws⟩) :
    s.nextIndex n = chosenIndex n.toNat ws s.turn.pick := by
  rw [nextIndex_eq, written_of_busy busy]

theorem exec_inittable_busy_room (busy : s.slot s.turn.client = .busy ⟨encode (.inittable n base cap), ws⟩)
    (fits : boundsViolated n base cap = false) (room : ws.length < n.toNat) :
    exec (.inittable n base cap) s = .next (s.writeElement n base cap) :=
  exec_inittable_room fits (by rwa [written_of_busy busy])

theorem exec_inittable_busy_full (busy : s.slot s.turn.client = .busy ⟨encode (.inittable n base cap), ws⟩)
    (fits : boundsViolated n base cap = false) (full : ws.length = n.toNat) :
    exec (.inittable n base cap) s = .next (s.respond .ok 0) :=
  exec_inittable_of_full fits (by rw [written_of_busy busy, full])

theorem writeElement_stored (inv : s.Inv) (busy : s.slot s.turn.client = .busy ⟨encode (.inittable n base cap), ws⟩) :
    (s.writeElement n base cap).hostWord (base.toNat + chosenIndex n.toNat ws s.turn.pick) =
      some (sqrt100 romContents (BitVec.ofNat 32 (chosenIndex n.toNat ws s.turn.pick))) := by
  obtain ⟨intact, -⟩ := inv
  rw [← nextIndex_of_busy busy, ← intact]
  exact writeElement_hostWord_next s n base cap

theorem writeElement_kept (busy : s.slot s.turn.client = .busy ⟨encode (.inittable n base cap), ws⟩) {e : Nat}
    (apart : e ≠ base.toNat + chosenIndex n.toNat ws s.turn.pick) : (s.writeElement n base cap).hostWord e = s.hostWord e :=
  writeElement_hostWord_other s n base cap (by rwa [elementAddress_eq, nextIndex_of_busy busy])

theorem writeElement_busy (busy : s.slot s.turn.client = .busy ⟨encode (.inittable n base cap), ws⟩) :
    (s.writeElement n base cap).slot s.turn.client =
      .busy ⟨encode (.inittable n base cap), insertIndex (chosenIndex n.toNat ws s.turn.pick) ws⟩ := by
  rw [slot_writeElement_client, nextIndex_of_busy busy, written_of_busy busy]

end

/-! ### Several write steps -/

/-- `t` is `s` after the INITTABLE of requester `r` wrote exactly the elements of the indices `ws`; the model's own fields are free. -/
structure Filled (s t : State) (r : Nat) (n base cap : Word) (ws : List Nat) : Prop where
  inv : t.Inv
  busy : t.slot r = .busy ⟨encode (.inittable n base cap), ws⟩
  stored : ∀ i ∈ ws, t.hostWord (base.toNat + i) = some (sqrt100 romContents (BitVec.ofNat 32 i))
  kept : ∀ e, (∀ i ∈ ws, e ≠ base.toNat + i) → t.hostWord e = s.hostWord e
  received : t.received = s.received
  others : ∀ other, other ≠ r → t.slot other = s.slot other

/-- The set W after write steps with the given picks. -/
def writtenAfter (n : Nat) : List Nat → List Nat → List Nat
  | ws, [] => ws
  | ws, pick :: picks => writtenAfter n (insertIndex (chosenIndex n ws pick) ws) picks

/-- Some picks write any indices below N that are not yet written, and no other. -/
theorem exists_picks {n : Nat} {ws todo : List Nat} (rises : ws.Pairwise (· < ·)) (ws_below : ∀ w ∈ ws, w < n) (nodup : todo.Nodup)
    (unwritten : ∀ i ∈ todo, i < n ∧ i ∉ ws) :
    ∃ picks, ws.length + picks.length ≤ n ∧ ∀ j, j ∈ writtenAfter n ws picks ↔ j ∈ ws ∨ j ∈ todo := by
  induction todo generalizing ws with
  | nil => exact ⟨[], (indices_length rises ws_below).1, by simp [writtenAfter]⟩
  | cons i todo ih =>
    obtain ⟨once, nodup⟩ := List.nodup_cons.mp nodup
    obtain ⟨⟨below, fresh⟩, unwritten⟩ := List.forall_mem_cons.mp unwritten
    obtain ⟨pick, chosen⟩ := exists_pick rises ws_below below fresh
    have more_below : ∀ w ∈ insertIndex i ws, w < n := fun w hw => by
      rcases (mem_insertIndex i w ws).mp hw with rfl | before
      · exact below
      · exact ws_below w before
    have still_unwritten : ∀ k ∈ todo, k < n ∧ k ∉ insertIndex i ws := fun k hk => by
      refine ⟨(unwritten k hk).1, fun inside => ?_⟩
      rcases (mem_insertIndex i k ws).mp inside with rfl | before
      · exact once hk
      · exact (unwritten k hk).2 before
    obtain ⟨picks, enough, all⟩ := ih (insertIndex_keeps_rising rises i) more_below nodup still_unwritten
    rw [length_insertIndex fresh] at enough
    refine ⟨pick :: picks, by rw [List.length_cons]; omega, fun j => ?_⟩
    rw [writtenAfter, chosen, all, mem_insertIndex, List.mem_cons]
    tauto

section
variable {s t : State} {r : Nat} {n base cap : Word} {ws : List Nat}

theorem Filled.start (inv : s.Inv) (busy : s.slot r = .busy ⟨encode (.inittable n base cap), []⟩) (ms : List Move) :
    Filled s { s with moves := ms } r n base cap [] where
  inv := inv
  busy := busy
  stored := List.forall_mem_nil _
  kept _ _ := rfl
  received := rfl
  others _ _ := rfl

theorem Filled.rises (h : Filled s t r n base cap ws) : ws.Pairwise (· < ·) := (inittable_record h.inv h.busy).1

theorem Filled.below (h : Filled s t r n base cap ws) : ∀ i ∈ ws, i < n.toNat := (inittable_record h.inv h.busy).2

/-- A turn of the requester with W not full adds the chosen index. -/
theorem Filled.writeElement (h : Filled s t r n base cap ws) (fits : boundsViolated n base cap = false) (room : ws.length < n.toNat)
    (pick : Nat) (ms : List Move) (d : Nat) :
    Filled s ((t.turnOf r pick ms d).writeElement n base cap) r n base cap (insertIndex (chosenIndex n.toNat ws pick) ws) := by
  have busy : (t.turnOf r pick ms d).slot (t.turnOf r pick ms d).turn.client = .busy ⟨encode (.inittable n base cap), ws⟩ := h.busy
  have inv : (t.turnOf r pick ms d).Inv := h.inv
  obtain ⟨-, fresh⟩ := chosenIndex_spec h.rises room pick
  constructor
  case inv => exact writeElement_keeps_Inv inv busy fits (by rwa [written_of_busy busy])
  case busy => exact writeElement_busy busy
  case stored =>
    intro i hi
    rcases (mem_insertIndex _ _ _).mp hi with rfl | before
    · exact writeElement_stored inv busy
    · have apart : i ≠ chosenIndex n.toNat ws pick := fun same => fresh (same ▸ before)
      exact (writeElement_kept busy (mt Nat.add_left_cancel apart)).trans (h.stored i before)
  case kept =>
    intro e apart
    have new : e ≠ base.toNat + chosenIndex n.toNat ws pick := apart _ ((mem_insertIndex ..).mpr (.inl rfl))
    exact (writeElement_kept busy new).trans (h.kept e fun i hi => apart i ((mem_insertIndex ..).mpr (.inr hi)))
  case received => exact h.received
  case others => exact fun other apart => (writeElement_others _ n base cap other apart).trans (h.others other apart)

theorem Filled.step (h : Filled s t r n base cap ws) (fits : boundsViolated n base cap = false) (room : ws.length < n.toNat)
    {pick : Nat} {rest : List Move} (head : t.moves = .run r pick :: rest) :
    ∃ u, step t = .next u ∧ u.moves = rest ∧ Filled s u r n base cap (insertIndex (chosenIndex n.toNat ws pick) ws) := by
  have ran := exec_inittable_busy_room (s := t.turnOf r pick rest t.draws) h.busy fits room
  exact ⟨_, (step_run_decode head h.busy (decode_encode _)).trans ran, rfl, h.writeElement fits room pick rest t.draws⟩

/-- As many run moves as W still has room for write as many elements. -/
theorem Filled.run {picks : List Nat} {tail : List Move} (h : Filled s t r n base cap ws) (fits : boundsViolated n base cap = false)
    (room : ws.length + picks.length ≤ n.toNat) (moves : t.moves = picks.map (Move.run r) ++ tail) :
    ∃ u, t.reaches picks.length u ∧ u.moves = tail ∧ Filled s u r n base cap (writtenAfter n.toNat ws picks) ∧
      (writtenAfter n.toNat ws picks).length = ws.length + picks.length := by
  induction picks generalizing t ws with
  | nil => exact ⟨t, reaches_zero t, moves, h, rfl⟩
  | cons pick picks ih =>
    rw [List.length_cons] at room
    have one : ws.length < n.toNat := by omega
    obtain ⟨u, first, rest, next⟩ := h.step fits one moves
    obtain ⟨-, fresh⟩ := chosenIndex_spec h.rises one pick
    have longer := length_insertIndex fresh
    obtain ⟨v, run, stay, filled, length⟩ := ih next (by omega) rest
    exact ⟨v, reaches_succ first run, stay, filled, by rw [writtenAfter, length, longer, List.length_cons]; omega⟩

/-- The completion step, once W is full. -/
theorem Filled.complete (h : Filled s t r n base cap ws) (fits : boundsViolated n base cap = false) (full : ws.length = n.toNat)
    {pick : Nat} {rest : List Move} (head : t.moves = .run r pick :: rest) :
    Sys2Proof.Machine.step t = .next ((t.turnOf r pick rest t.draws).respond .ok 0) :=
  (step_run_decode head h.busy (decode_encode _)).trans
    (exec_inittable_busy_full (s := t.turnOf r pick rest t.draws) h.busy fits full)

end

/-! ### Runs -/

theorem reaches_succ_iff {s u : State} {k : Nat} : s.reaches (k + 1) u ↔ ∃ t, step s = .next t ∧ t.reaches k u := by
  constructor
  · intro h
    obtain ⟨t, first⟩ := exists_step s
    exact ⟨t, first, (run_succ (M := Sys2Proof.core) first k).symm.trans h⟩
  · rintro ⟨t, first, rest⟩
    exact reaches_succ first rest

/-- A run, and one step more. -/
theorem reaches_step {s t u : State} {k : Nat} (run : s.reaches k t) (last : step t = .next u) : s.reaches (k + 1) u := by
  induction k generalizing s with
  | zero =>
    obtain rfl := Host.Outcome.next.inj run
    exact reaches_succ last (reaches_zero u)
  | succ k ih =>
    obtain ⟨v, first, rest⟩ := reaches_succ_iff.mp run
    exact reaches_succ first (ih rest)

end Sys2Proof.Machine

open Sys2Proof Sys2Proof.Machine

/-- Settles O43: an unwritten index leaves room in W, so the step is a write step. -/
theorem inittableWritesOneElementAStep : Obligations.InittableWritesOneElementAStep :=
  fun s n base cap ws inv busy capacity top ⟨j, below, unwritten⟩ => by
    obtain ⟨rises, ws_below⟩ := inittable_record inv busy
    have room : ws.length < n.toNat := length_lt_of_unwritten rises ws_below below unwritten
    obtain ⟨next_below, fresh⟩ := chosenIndex_spec rises room s.turn.pick
    exact ⟨_, _, _, exec_inittable_busy_room busy ((boundsViolated_false_iff n base cap).mpr ⟨capacity, top⟩) room,
      next_below, fresh, writeElement_stored inv busy, fun _ => writeElement_kept busy, writeElement_busy busy,
      fun j => mem_insertIndex _ j ws, rfl, rfl, writeElement_sameModelFields s n base cap, writeElement_others s n base cap⟩

/-- Settles O44: the pick that chooses the index makes the write step write its element. -/
theorem inittableMayWriteAnyElementNext : Obligations.InittableMayWriteAnyElementNext :=
  fun s r n base cap ws i inv busy capacity top below unwritten => by
    obtain ⟨rises, ws_below⟩ := inittable_record inv busy
    have room : ws.length < n.toNat := length_lt_of_unwritten rises ws_below below unwritten
    obtain ⟨pick, rfl⟩ := exists_pick rises ws_below below unwritten
    have served : (s.turnOf r pick s.moves s.draws).slot (s.turnOf r pick s.moves s.draws).turn.client =
      .busy ⟨encode (.inittable n base cap), ws⟩ := busy
    exact ⟨pick, _, exec_inittable_busy_room served ((boundsViolated_false_iff n base cap).mpr ⟨capacity, top⟩) room,
      writeElement_stored inv served, fun _ => writeElement_kept served, _, writeElement_busy served,
      fun j => mem_insertIndex _ j ws⟩

/-- Settles O45: under the invariant a W that holds every index has N of them. -/
theorem inittableCompletesWhenAllIsWritten : Obligations.InittableCompletesWhenAllIsWritten :=
  fun s n base cap ws inv busy capacity top all => by
    obtain ⟨rises, ws_below⟩ := inittable_record inv busy
    have full : ws.length = n.toNat := (indices_length rises ws_below).2.mpr all
    exact exec_respond_frame (exec_inittable_busy_full busy ((boundsViolated_false_iff n base cap).mpr ⟨capacity, top⟩) full)

/-- Settles O48: N write steps from the empty W fill it, and the next step answers. -/
theorem inittableFillsTheBufferInAnyOrder : Obligations.InittableFillsTheBufferInAnyOrder :=
  fun s r n base cap picks pick rest inv busy capacity top count moves => by
    have fits : boundsViolated n base cap = false := (boundsViolated_false_iff n base cap).mpr ⟨capacity, top⟩
    obtain ⟨u, run, stay, filled, length⟩ := (Filled.start inv busy s.moves).run fits (by simp [count]) moves
    have full : (writtenAfter n.toNat [] picks).length = n.toNat := by simpa [count] using length
    have all := (indices_length filled.rises filled.below).2.mp full
    obtain ⟨intact, -⟩ := inv
    obtain ⟨intact_after, -⟩ := filled.inv
    obtain ⟨-, -, -, others⟩ := respond_sameOutsideSlot (u.turnOf r pick rest u.draws) .ok 0
    refine ⟨_, reaches_step (count ▸ run) (filled.complete fits full stay), slot_respond_client _ _ _,
      fun i below => filled.stored i (all i below), fun e outside => filled.kept e fun i hi => ?_, intact_after.trans intact.symm,
      filled.received, rfl, fun other apart =>
      (others other apart).trans (filled.others other apart)⟩
    have below := filled.below i hi
    omega

/-- Settles O49: picks for exactly the given indices, and then the reset, which keeps memory. -/
theorem resetMayLeaveAnySubsetWritten : Obligations.ResetMayLeaveAnySubsetWritten :=
  fun s r n base cap subset inv busy capacity top nodup below => by
    have fits : boundsViolated n base cap = false := (boundsViolated_false_iff n base cap).mpr ⟨capacity, top⟩
    obtain ⟨picks, enough, exactly⟩ := exists_picks (n := n.toNat) List.Pairwise.nil (List.forall_mem_nil _) nodup
      fun i hi => ⟨below i hi, List.not_mem_nil⟩
    obtain ⟨u, run, stay, filled, -⟩ := (Filled.start inv busy (picks.map (Move.run r) ++ [.reset])).run fits enough rfl
    obtain ⟨t, last, idle, -, -, memory, received, -⟩ := resetIdlesEverySlotAndKeepsMemory u [] stay
    have written : ∀ j, j ∈ writtenAfter n.toNat [] picks ↔ j ∈ subset := by simpa using exactly
    refine ⟨picks, t, reaches_step run last, idle r, received.trans filled.received, fun i hi => ?_, fun e apart => ?_⟩
    · rw [memory, filled.stored i ((written i).mpr hi)]
    · rw [memory, filled.kept e fun i hi => apart i ((written i).mp hi)]

end

section
/-! PROOFS. 70_reset_and_hazards.md R114, D22: every step of the block uses up one of the steps that the accepted commands still need,
so they all complete. -/

namespace Sys2Proof.Machine

theorem pending_eq_zero_iff (x : Slot) : x.pending = 0 ↔ ∀ f, x ≠ .busy f := by
  cases x with
  | idle => simp
  | done a => simp
  | busy f =>
    refine iff_of_false ?_ fun none => none f rfl
    cases d : decode f.cmd with
    | error e => simp [Slot.pending, d]
    | ok i =>
      cases i with
      | sqrt n b c => simp [Slot.pending, d]
      | tlookup i b c => simp [Slot.pending, d]
      | inittable n base cap =>
        simp only [Slot.pending, d]
        split <;> exact Nat.succ_ne_zero _

theorem pending_inittable (n base cap : Word) (ws : List Nat) :
    (Slot.busy ⟨encode (.inittable n base cap), ws⟩).pending =
      if boundsViolated n base cap then 1 else n.toNat - ws.length + 1 := by
  simp only [Slot.pending, decode_encode, operand_eq]

theorem pendingSteps_eq_zero_iff {s : State} (canonical : Slots.wf s.slots) : s.pendingSteps = 0 ↔ s.noneBusy := by
  rw [State.pendingSteps, List.sum_eq_zero_iff, List.forall_mem_map]
  constructor
  · intro none r f busy
    exact (pending_eq_zero_iff _).mp (none _ (mem_slots_of_slot busy (by simp))) f rfl
  · rintro none ⟨r, x⟩ listed
    rw [← slot_of_mem canonical listed]
    exact (pending_eq_zero_iff _).mpr fun f => none r f

/-- A turn puts a slot that needs one step fewer in the place of the client's. -/
theorem runTurn_pending {s t : State} {f : InFlight} (inv : s.Inv) (busy : s.slot s.turn.client = .busy f) (ran : runTurn s = .next t) :
    ∃ y, y ≠ .idle ∧ t.slots = Slots.set s.slots s.turn.client y ∧ (Slot.busy f).pending = y.pending + 1 := by
  have answers : ∀ {st v}, runTurn s = .next (s.respond st v) → (Slot.busy f).pending = 1 →
      ∃ y, y ≠ .idle ∧ t.slots = Slots.set s.slots s.turn.client y ∧ (Slot.busy f).pending = y.pending + 1 := by
    intro st v h one
    obtain rfl := Host.Outcome.next.inj (h.symm.trans ran)
    exact ⟨.done ⟨st, v⟩, by simp, rfl, one⟩
  cases d : decode f.cmd with
  | error e => exact answers (runTurn_of_illegal busy (by simp [d])) (by simp only [Slot.pending, d])
  | ok i =>
    have exec_ran := runTurn_of_decode busy d
    cases i with
    | sqrt n b c => exact answers exec_ran (by simp only [Slot.pending, d])
    | tlookup i b c =>
      rcases execTlookup_cases i b c s with ⟨-, h⟩ | ⟨-, h⟩ <;>
        exact answers (exec_ran.trans h) (by simp only [Slot.pending, d])
    | inittable n base cap =>
      obtain ⟨_, ws⟩ := f
      obtain rfl := encode_of_decode d
      obtain ⟨rises, below⟩ := inittable_record inv busy
      have short := (indices_length rises below).1
      have written : s.written = ws := written_of_busy busy
      rcases execInittable_cases n base cap s with ⟨bad, h⟩ | ⟨fits, room, h⟩ | ⟨fits, full, h⟩
      · exact answers (exec_ran.trans h) (by rw [pending_inittable, if_pos bad])
      · obtain rfl := Host.Outcome.next.inj ((exec_ran.trans h).symm.trans ran)
        have fresh : s.nextIndex n ∉ ws := by
          rw [nextIndex_of_busy busy]
          exact (chosenIndex_spec rises (written ▸ room) _).2
        refine ⟨_, by simp, State.writeElement_slots s n base cap, ?_⟩
        rw [pending_inittable, pending_inittable, fits, written, length_insertIndex fresh]
        rw [written] at room
        simp only [Bool.false_eq_true, if_false]
        omega
      · refine answers (exec_ran.trans h) ?_
        rw [written] at full
        rw [pending_inittable, fits]
        simp only [Bool.false_eq_true, if_false]
        omega

/-- With no move to come and steps still needed, the step serves a Busy requester and uses up one of them. -/
theorem step_pendingSteps {s : State} {k : Nat} (inv : s.Inv) (quiet : s.moves = []) (need : s.pendingSteps = k + 1) :
    ∃ t r f, step s = .next t ∧ t.moves = [] ∧ t.pendingSteps = k ∧ s.slot r = .busy f ∧
      ((∃ a, t.slot r = .done a) ∨ ∃ g, t.slot r = .busy g) ∧ ∀ other, other ≠ r → t.slot other = s.slot other := by
  have canonical : Slots.wf s.slots := by
    obtain ⟨-, -, canonical, -⟩ := inv
    exact canonical
  have someBusy : ∃ q g, s.slot q = .busy g := by
    by_contra none
    push Not at none
    rw [(pendingSteps_eq_zero_iff canonical).mpr none] at need
    cases need
  obtain ⟨r, pick, f, busy, h⟩ := step_silent_busy canonical ((everyMoveWaits_iff s).mpr (nextMove_nil quiet)) someBusy
  obtain ⟨t, ran, moves, -⟩ := runTurn_moves (s.turnOf r pick s.moves (s.draws + 1))
  obtain ⟨y, notIdle, slots, one⟩ := runTurn_pending (s := s.turnOf r pick s.moves (s.draws + 1)) inv busy ran
  obtain ⟨others, client⟩ := runTurn_slots ran
  refine ⟨t, r, f, h.trans ran, moves.trans quiet, ?_, busy, client f busy, others⟩
  have total := sum_pending_slotsSet canonical (mem_slots_of_slot busy (by simp)) notIdle
  rw [State.pendingSteps] at need ⊢
  rw [slots]
  show ((Slots.set s.slots r y).map fun c => c.2.pending).sum = k
  omega

/-- R114: as many steps as are still needed answer every Busy slot and leave the others. -/
theorem reaches_noneBusy {s : State} {k : Nat} (inv : s.Inv) (quiet : s.moves = []) (need : s.pendingSteps = k) :
    ∃ t, s.reaches k t ∧ t.noneBusy ∧ t.moves = [] ∧ (∀ r f, s.slot r = .busy f → ∃ a, t.slot r = .done a) ∧
      ∀ r, (∀ f, s.slot r ≠ .busy f) → t.slot r = s.slot r := by
  induction k generalizing s with
  | zero =>
    obtain ⟨-, -, canonical, -⟩ := inv
    have none := (pendingSteps_eq_zero_iff canonical).mp need
    exact ⟨s, reaches_zero s, none, quiet, fun r f busy => absurd busy (none r f), fun _ _ => rfl⟩
  | succ k ih =>
    obtain ⟨u, r, f, first, quiet', need', busy, served, others⟩ := step_pendingSteps inv quiet need
    obtain ⟨t, rest, none, stay, answered, kept⟩ := ih (step_keeps_Inv inv first) quiet' need'
    refine ⟨t, reaches_succ first rest, none, stay, fun q g busy_q => ?_, fun q idle => ?_⟩
    · by_cases mine : q = r
      · subst mine
        rcases served with ⟨a, done⟩ | ⟨h, still⟩
        · exact ⟨a, (kept q (by simp [done])).trans done⟩
        · exact answered q h still
      · exact answered q g ((others q mine).trans busy_q)
    · have apart : q ≠ r := fun mine => idle f (mine ▸ busy)
      rw [← others q apart] at idle ⊢
      exact kept q idle

end Sys2Proof.Machine

open Sys2Proof Sys2Proof.Machine

/-- Settles O51: by induction on the number of steps still needed. -/
theorem everyAcceptedCommandCompletes : Obligations.EveryAcceptedCommandCompletes := fun _ inv quiet =>
  reaches_noneBusy inv quiet rfl

end

section
/-! PROOFS. 20_memory.md R27: the bytes of a word, in either order. -/

namespace Sys2Proof.Machine

theorem toNat_byte (w : Word) (j : Nat) : (w.extractLsb' (8 * j) 8).toNat = w.toNat / 256 ^ j % 256 := by
  rw [BitVec.extractLsb'_toNat, Nat.shiftRight_eq_div_pow, Nat.pow_mul]

/-- Byte `j` of an element is byte `j` of its word. -/
theorem hostByte_of_hostWord {s : State} {e j : Nat} {w : Word} (known : s.hostWord e = some w) (inside : j < 4) (order : ByteOrder) :
    s.hostByte order (4 * e + j) = some (byteOfWord order w j) := by
  have element : (4 * e + j) / 4 = e := by omega
  have byte : (4 * e + j) % 4 = j := by omega
  rw [State.hostByte, element, byte, known, Option.map_some]

end Sys2Proof.Machine

open Sys2Proof Sys2Proof.Machine

/-- Settles O52: an address splits into its element and byte, and each order takes eight bits of the word. -/
theorem elementsAreFourBytes : Obligations.ElementsAreFourBytes := fun _ _ j w known inside =>
  ⟨⟨_, hostByte_of_hostWord known inside .little, toNat_byte w j⟩,
    ⟨_, hostByte_of_hostWord known inside .big, toNat_byte w (3 - j)⟩⟩

end

section
/-! PROOFS. 20_memory.md R38, D19 and program P5 of 95_test_vectors.md: two INITTABLEs with overlapping buffers. What every step keeps
is that each element written so far holds a value that one of the two commands writes there. -/

namespace Sys2Proof.Machine

/-! ### Moves and runs -/

theorem nextMove_mem {s : State} {m : Move} {rest : List Move} (made : s.nextMove = some (m, rest)) :
    m ∈ s.moves ∧ ∀ x ∈ rest, x ∈ s.moves := by
  obtain ⟨-, before, after, list, rfl, -⟩ := firstPossible_some made
  rw [list]
  exact ⟨by simp, fun x => by simp only [List.mem_append, List.mem_cons]; tauto⟩

/-- A step brings no new move. -/
theorem step_moves_subset {s t : State} (stepped : step s = .next t) : ∀ m ∈ t.moves, m ∈ s.moves := by
  cases made : s.nextMove with
  | none =>
    obtain ⟨u, h, same, -⟩ := silentTurn_moves s
    obtain rfl := Host.Outcome.next.inj (((step_silent made).trans h).symm.trans stepped)
    rw [same]
    exact fun _ => id
  | some next =>
    obtain ⟨u, h, same, -⟩ := takeMove_moves next.1 { s with moves := next.2 }
    obtain rfl := Host.Outcome.next.inj (((step_nextMove made).trans h).symm.trans stepped)
    rw [same]
    exact (nextMove_mem made).2

/-- What a state has and every step keeps, every state that is reached has. -/
theorem reaches_keeps {P : State → Prop} (keeps : ∀ {s t}, P s → step s = .next t → P t) {s t : State} {k : Nat} (start : P s)
    (run : s.reaches k t) : P t := by
  induction k generalizing s with
  | zero => exact Host.Outcome.next.inj run ▸ start
  | succ k ih =>
    obtain ⟨u, first, rest⟩ := reaches_succ_iff.mp run
    exact ih (keeps start first) rest

/-! ### The race -/

/-- The requesters of program P5, each with the base of its buffer of four elements. -/
def raceCommands : List (Nat × Word) := [(1, 0x40), (2, 0x42)]

/-- The values that the commands of program P5 write to an element: two where the buffers overlap. -/
def raceValues : Nat → List Word
  | 0x40 => [0x00000000]
  | 0x41 => [0x00010000]
  | 0x42 => [0x00016A09, 0x00000000]
  | 0x43 => [0x0001BB67, 0x00010000]
  | 0x44 => [0x00016A09]
  | 0x45 => [0x0001BB67]
  | _ => []

theorem sqrt100_mem_raceValues : ∀ c ∈ raceCommands, ∀ i < 4,
    sqrt100 romContents (BitVec.ofNat 32 i) ∈ raceValues (c.2.toNat + i) := by decide

theorem raceCommand_fits : ∀ c ∈ raceCommands, boundsViolated 4 c.2 4 = false := by decide

theorem raceCommand_unique : ∀ c ∈ raceCommands, ∀ c' ∈ raceCommands, c'.1 = c.1 → c' = c := by decide

/-- The element holds a value that one of the two commands writes there. -/
def Raced (s : State) (e : Nat) : Prop := ∃ v ∈ raceValues e, s.hostWord e = some v

/-- How far a command of program P5 has come: the elements of its W are raced, and it is answered with OK once W is full. -/
def RaceProgress (s : State) (r : Nat) (base : Word) : Prop :=
  ∃ ws, (s.slot r = .busy ⟨encode (.inittable 4 base 4), ws⟩ ∨ s.slot r = .done ⟨.ok, 0⟩ ∧ ∀ i < 4, i ∈ ws) ∧
    ∀ i ∈ ws, Raced s (base.toNat + i)

/-- What every step of program P5 keeps, whichever requester each step serves. -/
structure RaceInv (s : State) : Prop where
  inv : s.Inv
  runs : ∀ m ∈ s.moves, ∃ r pick, m = .run r pick
  progress : ∀ c ∈ raceCommands, RaceProgress s c.1 c.2
  others : ∀ r f, s.slot r = .busy f → ∃ base, (r, base) ∈ raceCommands

theorem raceInv_start {moves : List Move} (runs : ∀ m ∈ moves, ∃ r pick, m = .run r pick) : RaceInv (overlapStart moves) where
  inv := by
    have empty : (overlapStart []).Inv := by decide
    exact empty
  runs := runs
  progress c hc := by
    have accepted : ∀ c ∈ raceCommands, (overlapStart []).slot c.1 = .busy ⟨encode (.inittable 4 c.2 4), []⟩ := by decide
    exact ⟨[], .inl (accepted c hc), List.forall_mem_nil _⟩
  others r f busy := by
    have listed : (r, Slot.busy f) ∈ (overlapStart []).slots := mem_slots_of_slot busy (by simp)
    rcases List.mem_pair.mp listed with first | second
    · cases first
      exact ⟨0x40, by decide⟩
    · cases second
      exact ⟨0x42, by decide⟩

theorem Raced.eq {s : State} {e : Nat} {v : Word} (h : Raced s e) (only : raceValues e = [v]) : s.hostWord e = some v := by
  obtain ⟨x, possible, held⟩ := h
  rw [only] at possible
  rw [held, List.mem_singleton.mp possible]

theorem Raced.eq_or_eq {s : State} {e : Nat} {v w : Word} (h : Raced s e) (both : raceValues e = [v, w]) :
    s.hostWord e = some v ∨ s.hostWord e = some w := by
  obtain ⟨x, possible, held⟩ := h
  rw [both] at possible
  rcases List.mem_pair.mp possible with rfl | rfl
  · exact .inl held
  · exact .inr held

theorem Raced.of_change {s t : State} {e : Nat} (h : Raced s e) (change : t.hostWord e = s.hostWord e ∨ Raced t e) : Raced t e := by
  rcases change with kept | raced
  · obtain ⟨v, possible, held⟩ := h
    exact ⟨v, possible, kept.trans held⟩
  · exact raced

theorem RaceProgress.of_changes {s t : State} {r : Nat} {base : Word} (h : RaceProgress s r base) (same : t.slot r = s.slot r)
    (changes : ∀ e, t.hostWord e = s.hostWord e ∨ Raced t e) : RaceProgress t r base := by
  obtain ⟨ws, slot, raced⟩ := h
  exact ⟨ws, by rwa [same], fun i hi => (raced i hi).of_change (changes _)⟩

/-- A turn of a command of program P5 writes one of its own elements or, with W full, answers: each word is kept or is raced. -/
theorem runTurn_race {s t : State} {base : Word} {f : InFlight} (inv : s.Inv) (command : (s.turn.client, base) ∈ raceCommands)
    (progress : RaceProgress s s.turn.client base) (busy : s.slot s.turn.client = .busy f) (ran : runTurn s = .next t) :
    (∀ e, t.hostWord e = s.hostWord e ∨ Raced t e) ∧ RaceProgress t s.turn.client base := by
  obtain ⟨ws, slot | ⟨done, -⟩, raced⟩ := progress
  case inr => cases done.symm.trans busy
  have exec_ran := runTurn_of_decode slot (decode_encode _)
  obtain ⟨rises, below⟩ := inittable_record inv slot
  have written : s.written = ws := written_of_busy slot
  rcases execInittable_cases 4 base 4 s with ⟨bad, -⟩ | ⟨-, room, h⟩ | ⟨-, full, h⟩
  · rw [raceCommand_fits _ command] at bad
    cases bad
  · obtain rfl := Host.Outcome.next.inj ((exec_ran.trans h).symm.trans ran)
    rw [written] at room
    obtain ⟨next_below, -⟩ := chosenIndex_spec rises room s.turn.pick
    have next_raced : Raced (s.writeElement 4 base 4) (base.toNat + chosenIndex 4 ws s.turn.pick) :=
      ⟨_, sqrt100_mem_raceValues _ command _ next_below, writeElement_stored inv slot⟩
    have changes : ∀ e, (s.writeElement 4 base 4).hostWord e = s.hostWord e ∨ Raced (s.writeElement 4 base 4) e := fun e => by
      by_cases here : e = base.toNat + chosenIndex 4 ws s.turn.pick
      · exact .inr (here ▸ next_raced)
      · exact .inl (writeElement_kept slot here)
    refine ⟨changes, _, .inl (writeElement_busy slot), fun i hi => ?_⟩
    rcases (mem_insertIndex _ _ _).mp hi with rfl | before
    · exact next_raced
    · exact (raced i before).of_change (changes _)
  · obtain rfl := Host.Outcome.next.inj ((exec_ran.trans h).symm.trans ran)
    obtain ⟨short, all⟩ := indices_length rises below
    have complete := all.mp (short.antisymm (written ▸ full))
    exact ⟨fun _ => .inl rfl, ws, .inr ⟨slot_respond_client s .ok 0, complete⟩, raced⟩

theorem step_keeps_raceInv {s t : State} (h : RaceInv s) (stepped : step s = .next t) : RaceInv t := by
  have inv := step_keeps_Inv h.inv stepped
  have runs : ∀ m ∈ t.moves, ∃ r pick, m = .run r pick := fun m hm => h.runs m (step_moves_subset stepped m hm)
  have only_runs : ∀ {m rest}, s.nextMove = some (m, rest) → ∃ r pick, m = .run r pick :=
    fun made => h.runs _ (nextMove_mem made).1
  cases step_effect stepped with
  | wait => exact ⟨inv, runs, h.progress, h.others⟩
  | @serve r pick ms d f _ chosen busy ran =>
    obtain ⟨base, command⟩ := h.others r f busy
    obtain ⟨changes, served⟩ :=
      runTurn_race (s := s.turnOf r pick ms d) h.inv command (h.progress _ command) busy ran
    obtain ⟨others, -⟩ := runTurn_slots ran
    refine ⟨inv, runs, fun c hc => ?_, fun q g busy_q => ?_⟩
    · by_cases mine : c.1 = r
      · obtain rfl := raceCommand_unique _ command c hc mine
        exact served
      · exact (h.progress c hc).of_changes (others c.1 mine) changes
    · by_cases mine : q = r
      · exact ⟨base, mine ▸ command⟩
      · exact h.others q g ((others q mine).symm.trans busy_q)
  | accept made => obtain ⟨_, _, run⟩ := only_runs made; cases run
  | take made => obtain ⟨_, _, run⟩ := only_runs made; cases run
  | hostWrite made => obtain ⟨_, _, run⟩ := only_runs made; cases run
  | reset made => obtain ⟨_, _, run⟩ := only_runs made; cases run

theorem RaceProgress.all_raced {s : State} {r : Nat} {base : Word} (h : RaceProgress s r base) (done : s.slot r = .done ⟨.ok, 0⟩) :
    ∀ i < 4, Raced s (base.toNat + i) := by
  obtain ⟨ws, busy | ⟨-, full⟩, raced⟩ := h
  · cases busy.symm.trans done
  · exact fun i below => raced i (full i below)

/-- With the moves given, program P5 ends with both commands answered OK and these two words at the raced elements. -/
def RaceEnds (moves : List Move) (v w : Word) : Prop :=
  ∃ t, (overlapStart moves).reaches 10 t ∧ t.slot 1 = .done ⟨.ok, 0⟩ ∧ t.slot 2 = .done ⟨.ok, 0⟩ ∧ t.hostWord 0x42 = some v ∧
    t.hostWord 0x43 = some w

/-- Requester 2 first, and then requester 1. -/
theorem raceEnds_second_first :
    RaceEnds (List.replicate 5 (.run 2 0) ++ List.replicate 5 (.run 1 0)) 0x00016A09 0x0001BB67 :=
  ⟨_, rfl, by decide, by decide, by decide, by decide⟩

/-- Requester 1 first, and then requester 2. -/
theorem raceEnds_first_first :
    RaceEnds (List.replicate 5 (.run 1 0) ++ List.replicate 5 (.run 2 0)) 0x00000000 0x00010000 :=
  ⟨_, rfl, by decide, by decide, by decide, by decide⟩

/-- Requester 1 leaves its index 2, at 0x42, until requester 2 is done. -/
theorem raceEnds_first_keeps_lower :
    RaceEnds ([.run 1 0, .run 1 0, .run 1 1] ++ List.replicate 5 (.run 2 0) ++ List.replicate 2 (.run 1 0))
      0x00016A09 0x00010000 :=
  ⟨_, rfl, by decide, by decide, by decide, by decide⟩

/-- Requester 1 leaves its index 3, at 0x43, until requester 2 is done. -/
theorem raceEnds_first_keeps_upper :
    RaceEnds (List.replicate 3 (.run 1 0) ++ List.replicate 5 (.run 2 0) ++ List.replicate 2 (.run 1 0))
      0x00000000 0x0001BB67 :=
  ⟨_, rfl, by decide, by decide, by decide, by decide⟩

end Sys2Proof.Machine

open Sys2Proof Sys2Proof.Machine

/-- Settles O50: four interleavings end in the four combinations, and in every interleaving the elements of an answered command are
raced. -/
theorem overlappingBuffersRace : Obligations.OverlappingBuffersRace := by
  refine ⟨?_, fun moves k t runs run done1 done2 => ?_⟩
  · simp only [List.forall_mem_cons, List.not_mem_nil, false_imp_iff, implies_true, and_true]
    exact ⟨⟨⟨_, raceEnds_second_first⟩, _, raceEnds_first_keeps_lower⟩,
      ⟨_, raceEnds_first_keeps_upper⟩, _, raceEnds_first_first⟩
  · have ends := reaches_keeps step_keeps_raceInv (raceInv_start runs) run
    have first := (ends.progress (1, 0x40) (by decide)).all_raced done1
    have second := (ends.progress (2, 0x42) (by decide)).all_raced done2
    exact ⟨(first 0 (by decide)).eq rfl, (first 1 (by decide)).eq rfl, (first 2 (by decide)).eq_or_eq rfl,
      (first 3 (by decide)).eq_or_eq rfl, (second 2 (by decide)).eq rfl, (second 3 (by decide)).eq rfl⟩

end
